-- ==== Sys2Proof/Word.lean ====
section
/-!
DEFINITION. The widths of the block's values (00_scope.md R6, R10) and the text of a line (R12).
Every value is an unsigned bit vector of a fixed width; a line is a sequence of characters.
-/
namespace Sys2Proof

/-- One 8-bit byte of the input stream (20_memory.md R40). -/
abbrev Byte := BitVec 8

/-- A 4-bit unit of a word: the fields `X`, `Y`, `N` (00_scope.md R6, R13). -/
abbrev Nibble := BitVec 4

/-- The 12-bit field `NNN` (30_encoding.md R61). -/
abbrev Addr := BitVec 12

/-- A 16-bit instruction word (30_encoding.md R60). -/
abbrev Word := BitVec 16

/-- A line: a finite sequence of characters (00_scope.md R12). Its bytes are `lineBytes` of
Machine/Operands.lean. -/
abbrev Text := List Char

end Sys2Proof
end

