-- ==== Sys2Proof/Config.lean ====
section
/-!
DEFINITION. The constants an implementation fixes. The spec leaves nothing as a draw (00_scope.md R14 (6)), so there
is no free value here: every constant is one the spec states.
-/
namespace Sys2Proof.Config

/-- `NPAT`, the number of table entries (00_scope.md R6). -/
def npat : Nat := 35

/-- `LINE_MAX`, the length of the longest line and of the fixed-width line port (00_scope.md R8, 10_state.md R32). -/
def lineMax : Nat := 15

/-- The value of `pat` on a miss (10_state.md R32, 41_decoder.md R106, decision D15). -/
def patMiss : BitVec 6 := 63#6

/-- `COND_UNKNOWN` (60_exceptions.md R202, decision D12). -/
def condUnknown : Nat := 1

/-- `COND_TRUNCATED` (60_exceptions.md R201, decision D12). -/
def condTruncated : Nat := 2

/-- The line feed `Join` puts between lines (41_decoder.md R112, decision D13). -/
def lineFeed : Char := '\n'

end Sys2Proof.Config
end

