-- ==== Sys2Proof/Syntax.lean ====
section
/-!
DEFINITION. The instructions as data: one constructor of `Instr` per row of the opcode table (30_encoding.md R71),
the fields a word is cut into, the items of a template, the shape of a table row, and the reasons for which bytes
hold no instruction.
-/
namespace Sys2Proof

/-- One constructor per table row, in table order (30_encoding.md R71). The operands are the fields the row's
template prints: `x`, `y`, `n` 4 bits, `nn` 8 bits, `nnn` 12 bits (R61, R63). -/
inductive Instr where
  | cls                                    -- row 0,  00E0 (R130)
  | ret                                    -- row 1,  00EE (R131)
  | sysAddr (nnn : Addr)                   -- row 2,  0NNN (R132)
  | jpAddr (nnn : Addr)                    -- row 3,  1NNN (R133)
  | callAddr (nnn : Addr)                  -- row 4,  2NNN (R134)
  | seVxByte (x : Nibble) (nn : Byte)      -- row 5,  3XNN (R135)
  | sneVxByte (x : Nibble) (nn : Byte)     -- row 6,  4XNN (R136)
  | seVxVy (x y : Nibble)                  -- row 7,  5XY0 (R137)
  | ldVxByte (x : Nibble) (nn : Byte)      -- row 8,  6XNN (R138)
  | addVxByte (x : Nibble) (nn : Byte)     -- row 9,  7XNN (R139)
  | ldVxVy (x y : Nibble)                  -- row 10, 8XY0 (R140)
  | orVxVy (x y : Nibble)                  -- row 11, 8XY1 (R141)
  | andVxVy (x y : Nibble)                 -- row 12, 8XY2 (R142)
  | xorVxVy (x y : Nibble)                 -- row 13, 8XY3 (R143)
  | addVxVy (x y : Nibble)                 -- row 14, 8XY4 (R144)
  | subVxVy (x y : Nibble)                 -- row 15, 8XY5 (R145)
  | shrVxVy (x y : Nibble)                 -- row 16, 8XY6 (R146)
  | subnVxVy (x y : Nibble)                -- row 17, 8XY7 (R147)
  | shlVxVy (x y : Nibble)                 -- row 18, 8XYE (R148)
  | sneVxVy (x y : Nibble)                 -- row 19, 9XY0 (R149)
  | ldIAddr (nnn : Addr)                   -- row 20, ANNN (R150)
  | jpV0Addr (nnn : Addr)                  -- row 21, BNNN (R151)
  | rndVxByte (x : Nibble) (nn : Byte)     -- row 22, CXNN (R152)
  | drwVxVyNibble (x y n : Nibble)         -- row 23, DXYN (R153)
  | skpVx (x : Nibble)                     -- row 24, EX9E (R154)
  | sknpVx (x : Nibble)                    -- row 25, EXA1 (R155)
  | ldVxDt (x : Nibble)                    -- row 26, FX07 (R156)
  | ldVxK (x : Nibble)                     -- row 27, FX0A (R157)
  | ldDtVx (x : Nibble)                    -- row 28, FX15 (R158)
  | ldStVx (x : Nibble)                    -- row 29, FX18 (R159)
  | addIVx (x : Nibble)                    -- row 30, FX1E (R160)
  | ldFVx (x : Nibble)                     -- row 31, FX29 (R161)
  | ldBVx (x : Nibble)                     -- row 32, FX33 (R162)
  | ldIndVx (x : Nibble)                   -- row 33, FX55 (R163)
  | ldVxInd (x : Nibble)                   -- row 34, FX65 (R164)
  deriving DecidableEq, Repr

/-- The five fields of a word, produced for every word (41_decoder.md R103). -/
structure Fields where
  x   : Nibble
  y   : Nibble
  n   : Nibble
  nn  : Byte
  nnn : Addr
  deriving DecidableEq, Repr

/-- One item of a template: a literal text or one of the five placeholders (30_encoding.md R66). -/
inductive Item where
  | lit (t : Text)
  | fieldX
  | fieldY
  | fieldN
  | fieldNN
  | fieldNNN
  deriving DecidableEq, Repr

/-- A template: a finite sequence of items (30_encoding.md R66). -/
abbrev Template := List Item

/-- One entry of the table: mask, match value, template (10_state.md R29), and the instruction the row's fields
make, the "field-extraction spec" of 30_encoding.md R66. -/
structure Row where
  mask     : Word
  value    : Word
  template : Template
  build    : Fields → Instr

/-- Why bytes hold no instruction: the two conditions of the block, by name (60_exceptions.md R200). -/
inductive Reject where
  /-- No two bytes are left: a byte alone forms no word (R201; no byte at all is the end of the stream). -/
  | noWholeWord
  /-- The word matches no row of the table (R202). -/
  | unknownInstruction (w : Word)
  deriving DecidableEq, Repr

/-- What a decoder answers: the thing decoded, or the rejection by name. -/
inductive Decoded (α : Type) where
  | ok (a : α)
  | rejected (r : Reject)
  deriving DecidableEq, Repr

end Sys2Proof
end

