-- ==== Sys2Proof/WellFormed.lean ====
section
/-!
DEFINITION. Which instruction terms have a word of their own. The operand types already bound every field; the one
further condition comes from the order of the table: rows 0 and 1 take the words 0x00E0 and 0x00EE before row 2
(30_encoding.md R72, R132), so `SYS 0x0E0` and `SYS 0x0EE` are the instruction of no word.
-/
namespace Sys2Proof

/-- The term is the instruction of some word (R132: row 2 is selected when `w` is neither 0x00E0 nor 0x00EE). -/
def wellFormed : Instr → Bool
  | .cls => true
  | .ret => true
  | .sysAddr nnn => nnn != 0x0E0#12 && nnn != 0x0EE#12
  | .jpAddr _ => true
  | .callAddr _ => true
  | .seVxByte _ _ => true
  | .sneVxByte _ _ => true
  | .seVxVy _ _ => true
  | .ldVxByte _ _ => true
  | .addVxByte _ _ => true
  | .ldVxVy _ _ => true
  | .orVxVy _ _ => true
  | .andVxVy _ _ => true
  | .xorVxVy _ _ => true
  | .addVxVy _ _ => true
  | .subVxVy _ _ => true
  | .shrVxVy _ _ => true
  | .subnVxVy _ _ => true
  | .shlVxVy _ _ => true
  | .sneVxVy _ _ => true
  | .ldIAddr _ => true
  | .jpV0Addr _ => true
  | .rndVxByte _ _ => true
  | .drwVxVyNibble _ _ _ => true
  | .skpVx _ => true
  | .sknpVx _ => true
  | .ldVxDt _ => true
  | .ldVxK _ => true
  | .ldDtVx _ => true
  | .ldStVx _ => true
  | .addIVx _ => true
  | .ldFVx _ => true
  | .ldBVx _ => true
  | .ldIndVx _ => true
  | .ldVxInd _ => true

end Sys2Proof
end

