-- ==== Sys2Proof/Decode.lean ====
section
/-!
DEFINITION. The word pairing and the field extractor (41_decoder.md R103), the opcode table (30_encoding.md R71), the
first-match matcher (41_decoder.md R101), the decoder from words and from bytes, and, after it, the encoder written
from the same encodings.
-/
namespace Sys2Proof

/-- Two bytes, the first the high-order one, as a word: `(zext_16(hi) << 8) | zext_16(lo)`
(20_memory.md R44, 40_word_reader.md R90). -/
def pairBytes (hi lo : Byte) : Word :=
  (hi.setWidth 16 <<< 8) ||| lo.setWidth 16

/-- The high-order byte of a word, the one at the lower offset (20_memory.md R44). -/
def highByte (w : Word) : Byte := w.extractLsb' 8 8

/-- The low-order byte of a word. -/
def lowByte (w : Word) : Byte := w.extractLsb' 0 8

/-- `Extract(w)`: `x = w[11:8]`, `y = w[7:4]`, `n = w[3:0]`, `nn = w[7:0]`, `nnn = w[11:0]`, for every word
(41_decoder.md R103, 30_encoding.md R61, R65). -/
def extract (w : Word) : Fields where
  x   := w.extractLsb' 8 4
  y   := w.extractLsb' 4 4
  n   := w.extractLsb' 0 4
  nn  := w.extractLsb' 0 8
  nnn := w.extractLsb' 0 12

/-- Rows 0 to 9 (30_encoding.md R71, 42_patterns_0_to_7.md). -/
def tableRows0To9 : List Row := [
  ⟨0xFFFF#16, 0x00E0#16, [.lit ['C', 'L', 'S']], fun _ => .cls⟩,
  ⟨0xFFFF#16, 0x00EE#16, [.lit ['R', 'E', 'T']], fun _ => .ret⟩,
  ⟨0xF000#16, 0x0000#16, [.lit ['S', 'Y', 'S', ' ', '0', 'x'], .fieldNNN], fun f => .sysAddr f.nnn⟩,
  ⟨0xF000#16, 0x1000#16, [.lit ['J', 'P', ' ', '0', 'x'], .fieldNNN], fun f => .jpAddr f.nnn⟩,
  ⟨0xF000#16, 0x2000#16, [.lit ['C', 'A', 'L', 'L', ' ', '0', 'x'], .fieldNNN], fun f => .callAddr f.nnn⟩,
  ⟨0xF000#16, 0x3000#16, [.lit ['S', 'E', ' ', 'V'], .fieldX, .lit [',', ' ', '0', 'x'], .fieldNN], fun f => .seVxByte f.x f.nn⟩,
  ⟨0xF000#16, 0x4000#16, [.lit ['S', 'N', 'E', ' ', 'V'], .fieldX, .lit [',', ' ', '0', 'x'], .fieldNN], fun f => .sneVxByte f.x f.nn⟩,
  ⟨0xF00F#16, 0x5000#16, [.lit ['S', 'E', ' ', 'V'], .fieldX, .lit [',', ' ', 'V'], .fieldY], fun f => .seVxVy f.x f.y⟩,
  ⟨0xF000#16, 0x6000#16, [.lit ['L', 'D', ' ', 'V'], .fieldX, .lit [',', ' ', '0', 'x'], .fieldNN], fun f => .ldVxByte f.x f.nn⟩,
  ⟨0xF000#16, 0x7000#16, [.lit ['A', 'D', 'D', ' ', 'V'], .fieldX, .lit [',', ' ', '0', 'x'], .fieldNN], fun f => .addVxByte f.x f.nn⟩]

/-- Rows 10 to 19 (30_encoding.md R71, 43_patterns_8_to_9.md). -/
def tableRows10To19 : List Row := [
  ⟨0xF00F#16, 0x8000#16, [.lit ['L', 'D', ' ', 'V'], .fieldX, .lit [',', ' ', 'V'], .fieldY], fun f => .ldVxVy f.x f.y⟩,
  ⟨0xF00F#16, 0x8001#16, [.lit ['O', 'R', ' ', 'V'], .fieldX, .lit [',', ' ', 'V'], .fieldY], fun f => .orVxVy f.x f.y⟩,
  ⟨0xF00F#16, 0x8002#16, [.lit ['A', 'N', 'D', ' ', 'V'], .fieldX, .lit [',', ' ', 'V'], .fieldY], fun f => .andVxVy f.x f.y⟩,
  ⟨0xF00F#16, 0x8003#16, [.lit ['X', 'O', 'R', ' ', 'V'], .fieldX, .lit [',', ' ', 'V'], .fieldY], fun f => .xorVxVy f.x f.y⟩,
  ⟨0xF00F#16, 0x8004#16, [.lit ['A', 'D', 'D', ' ', 'V'], .fieldX, .lit [',', ' ', 'V'], .fieldY], fun f => .addVxVy f.x f.y⟩,
  ⟨0xF00F#16, 0x8005#16, [.lit ['S', 'U', 'B', ' ', 'V'], .fieldX, .lit [',', ' ', 'V'], .fieldY], fun f => .subVxVy f.x f.y⟩,
  ⟨0xF00F#16, 0x8006#16, [.lit ['S', 'H', 'R', ' ', 'V'], .fieldX, .lit [',', ' ', 'V'], .fieldY], fun f => .shrVxVy f.x f.y⟩,
  ⟨0xF00F#16, 0x8007#16, [.lit ['S', 'U', 'B', 'N', ' ', 'V'], .fieldX, .lit [',', ' ', 'V'], .fieldY], fun f => .subnVxVy f.x f.y⟩,
  ⟨0xF00F#16, 0x800E#16, [.lit ['S', 'H', 'L', ' ', 'V'], .fieldX, .lit [',', ' ', 'V'], .fieldY], fun f => .shlVxVy f.x f.y⟩,
  ⟨0xF00F#16, 0x9000#16, [.lit ['S', 'N', 'E', ' ', 'V'], .fieldX, .lit [',', ' ', 'V'], .fieldY], fun f => .sneVxVy f.x f.y⟩]

/-- Rows 20 to 34 (30_encoding.md R71, 44_patterns_a_to_f.md). -/
def tableRows20To34 : List Row := [
  ⟨0xF000#16, 0xA000#16, [.lit ['L', 'D', ' ', 'I', ',', ' ', '0', 'x'], .fieldNNN], fun f => .ldIAddr f.nnn⟩,
  ⟨0xF000#16, 0xB000#16, [.lit ['J', 'P', ' ', 'V', '0', ',', ' ', '0', 'x'], .fieldNNN], fun f => .jpV0Addr f.nnn⟩,
  ⟨0xF000#16, 0xC000#16, [.lit ['R', 'N', 'D', ' ', 'V'], .fieldX, .lit [',', ' ', '0', 'x'], .fieldNN], fun f => .rndVxByte f.x f.nn⟩,
  ⟨0xF000#16, 0xD000#16, [.lit ['D', 'R', 'W', ' ', 'V'], .fieldX, .lit [',', ' ', 'V'], .fieldY, .lit [',', ' ', '0', 'x'], .fieldN], fun f => .drwVxVyNibble f.x f.y f.n⟩,
  ⟨0xF0FF#16, 0xE09E#16, [.lit ['S', 'K', 'P', ' ', 'V'], .fieldX], fun f => .skpVx f.x⟩,
  ⟨0xF0FF#16, 0xE0A1#16, [.lit ['S', 'K', 'N', 'P', ' ', 'V'], .fieldX], fun f => .sknpVx f.x⟩,
  ⟨0xF0FF#16, 0xF007#16, [.lit ['L', 'D', ' ', 'V'], .fieldX, .lit [',', ' ', 'D', 'T']], fun f => .ldVxDt f.x⟩,
  ⟨0xF0FF#16, 0xF00A#16, [.lit ['L', 'D', ' ', 'V'], .fieldX, .lit [',', ' ', 'K']], fun f => .ldVxK f.x⟩,
  ⟨0xF0FF#16, 0xF015#16, [.lit ['L', 'D', ' ', 'D', 'T', ',', ' ', 'V'], .fieldX], fun f => .ldDtVx f.x⟩,
  ⟨0xF0FF#16, 0xF018#16, [.lit ['L', 'D', ' ', 'S', 'T', ',', ' ', 'V'], .fieldX], fun f => .ldStVx f.x⟩,
  ⟨0xF0FF#16, 0xF01E#16, [.lit ['A', 'D', 'D', ' ', 'I', ',', ' ', 'V'], .fieldX], fun f => .addIVx f.x⟩,
  ⟨0xF0FF#16, 0xF029#16, [.lit ['L', 'D', ' ', 'F', ',', ' ', 'V'], .fieldX], fun f => .ldFVx f.x⟩,
  ⟨0xF0FF#16, 0xF033#16, [.lit ['L', 'D', ' ', 'B', ',', ' ', 'V'], .fieldX], fun f => .ldBVx f.x⟩,
  ⟨0xF0FF#16, 0xF055#16, [.lit ['L', 'D', ' ', '[', 'I', ']', ',', ' ', 'V'], .fieldX], fun f => .ldIndVx f.x⟩,
  ⟨0xF0FF#16, 0xF065#16, [.lit ['L', 'D', ' ', 'V'], .fieldX, .lit [',', ' ', '[', 'I', ']']], fun f => .ldVxInd f.x⟩]

/-- `TABLE`: the 35 rows, the index order being the priority order (10_state.md R29, 30_encoding.md R70, R71;
log entry 5). -/
def table : List Row := tableRows0To9 ++ (tableRows10To19 ++ tableRows20To34)

/-- Row `r` applies to `w`: `w & mask == match` (30_encoding.md R70). -/
def rowApplies (r : Row) (w : Word) : Bool := w &&& r.mask == r.value

/-- The matcher loop over the rows from index `k` on: the first row that applies (41_decoder.md R101). -/
def matchFrom : Nat → List Row → Word → Option (Nat × Row)
  | _, [], _ => none
  | k, r :: rs, w => if rowApplies r w then some (k, r) else matchFrom (k + 1) rs w

/-- The selected row with its index. -/
def selectRow (w : Word) : Option (Nat × Row) := matchFrom 0 table w

/-- `Match(w)`: the index of the first row that applies, or none (41_decoder.md R101). -/
def matchWord (w : Word) : Option Nat := (selectRow w).map (·.1)

/-- One word to an instruction, or the rejection by name (60_exceptions.md R202). -/
def decodeWord (w : Word) : Decoded Instr :=
  match selectRow w with
  | some (_, r) => .ok (r.build (extract w))
  | none => .rejected (.unknownInstruction w)

/-- The first instruction of a byte sequence and the bytes after it. An instruction is always two bytes, big-endian
(30_encoding.md R60); fewer than two bytes hold none (60_exceptions.md R201). -/
def decodeBytes : List Byte → Decoded (Instr × List Byte)
  | [] => .rejected .noWholeWord
  | [_] => .rejected .noWholeWord
  | hi :: lo :: rest =>
    match decodeWord (pairBytes hi lo) with
    | .ok i => .ok (i, rest)
    | .rejected e => .rejected e

/-- The word as the input stream stores it: the high-order byte first (20_memory.md R44). -/
def wordBytes (w : Word) : List Byte := [highByte w, lowByte w]

/-- The word of a table row's bits: the low `nbits` bits of `w`, every bit above them 0. -/
def tableWord (nbits w : Nat) : Word := BitVec.ofNat 16 (w % 2 ^ nbits)

/-- The host's question: the instruction the decoder reads from the bytes of that word. -/
def decodeTableWord (nbits w : Nat) : Option Instr :=
  match decodeBytes (wordBytes (tableWord nbits w)) with
  | .ok (i, _) => some i
  | .rejected _ => none

/-- The word of an instruction, most significant nibble first, written from the encoding strings of R130 to R164. -/
def encode : Instr → Word
  | .cls => 0x00E0#16
  | .ret => 0x00EE#16
  | .sysAddr nnn => 0x0#4 ++ nnn
  | .jpAddr nnn => 0x1#4 ++ nnn
  | .callAddr nnn => 0x2#4 ++ nnn
  | .seVxByte x nn => 0x3#4 ++ x ++ nn
  | .sneVxByte x nn => 0x4#4 ++ x ++ nn
  | .seVxVy x y => 0x5#4 ++ x ++ y ++ 0x0#4
  | .ldVxByte x nn => 0x6#4 ++ x ++ nn
  | .addVxByte x nn => 0x7#4 ++ x ++ nn
  | .ldVxVy x y => 0x8#4 ++ x ++ y ++ 0x0#4
  | .orVxVy x y => 0x8#4 ++ x ++ y ++ 0x1#4
  | .andVxVy x y => 0x8#4 ++ x ++ y ++ 0x2#4
  | .xorVxVy x y => 0x8#4 ++ x ++ y ++ 0x3#4
  | .addVxVy x y => 0x8#4 ++ x ++ y ++ 0x4#4
  | .subVxVy x y => 0x8#4 ++ x ++ y ++ 0x5#4
  | .shrVxVy x y => 0x8#4 ++ x ++ y ++ 0x6#4
  | .subnVxVy x y => 0x8#4 ++ x ++ y ++ 0x7#4
  | .shlVxVy x y => 0x8#4 ++ x ++ y ++ 0xE#4
  | .sneVxVy x y => 0x9#4 ++ x ++ y ++ 0x0#4
  | .ldIAddr nnn => 0xA#4 ++ nnn
  | .jpV0Addr nnn => 0xB#4 ++ nnn
  | .rndVxByte x nn => 0xC#4 ++ x ++ nn
  | .drwVxVyNibble x y n => 0xD#4 ++ x ++ y ++ n
  | .skpVx x => 0xE#4 ++ x ++ 0x9E#8
  | .sknpVx x => 0xE#4 ++ x ++ 0xA1#8
  | .ldVxDt x => 0xF#4 ++ x ++ 0x07#8
  | .ldVxK x => 0xF#4 ++ x ++ 0x0A#8
  | .ldDtVx x => 0xF#4 ++ x ++ 0x15#8
  | .ldStVx x => 0xF#4 ++ x ++ 0x18#8
  | .addIVx x => 0xF#4 ++ x ++ 0x1E#8
  | .ldFVx x => 0xF#4 ++ x ++ 0x29#8
  | .ldBVx x => 0xF#4 ++ x ++ 0x33#8
  | .ldIndVx x => 0xF#4 ++ x ++ 0x55#8
  | .ldVxInd x => 0xF#4 ++ x ++ 0x65#8

/-- The two bytes of an instruction as the input stream stores them. -/
def encodeBytes (i : Instr) : List Byte := wordBytes (encode i)

/-- The index of an instruction's row in the table (30_encoding.md R71). -/
def rowIndex : Instr → Nat
  | .cls => 0
  | .ret => 1
  | .sysAddr _ => 2
  | .jpAddr _ => 3
  | .callAddr _ => 4
  | .seVxByte _ _ => 5
  | .sneVxByte _ _ => 6
  | .seVxVy _ _ => 7
  | .ldVxByte _ _ => 8
  | .addVxByte _ _ => 9
  | .ldVxVy _ _ => 10
  | .orVxVy _ _ => 11
  | .andVxVy _ _ => 12
  | .xorVxVy _ _ => 13
  | .addVxVy _ _ => 14
  | .subVxVy _ _ => 15
  | .shrVxVy _ _ => 16
  | .subnVxVy _ _ => 17
  | .shlVxVy _ _ => 18
  | .sneVxVy _ _ => 19
  | .ldIAddr _ => 20
  | .jpV0Addr _ => 21
  | .rndVxByte _ _ => 22
  | .drwVxVyNibble _ _ _ => 23
  | .skpVx _ => 24
  | .sknpVx _ => 25
  | .ldVxDt _ => 26
  | .ldVxK _ => 27
  | .ldDtVx _ => 28
  | .ldStVx _ => 29
  | .addIVx _ => 30
  | .ldFVx _ => 31
  | .ldBVx _ => 32
  | .ldIndVx _ => 33
  | .ldVxInd _ => 34

end Sys2Proof
end

