-- ==== Sys2Proof/Machine/State.lean ====
section
/-!
DEFINITION. The run state of the block (10_state.md section 4), with the run's parameters `BYTES` and `N` beside it
(R31), the reasons a step can stop, the conditions the block records, and the state after reset (R30).
-/
namespace Sys2Proof.Machine

/-- A byte space as plain data: (offset, byte) pairs in canonical form (`Memory.wf` of Machine/Ops.lean). -/
abbrev Memory := List Host.Cell

/-- One entry of the line sink: the line and its `UNK` bit (10_state.md R24, R26). -/
structure Entry where
  line : Text
  unk  : Bool
  deriving DecidableEq, Repr

/-- Everything the spec gives the block. -/
structure State where
  /-- `BYTES`, the input byte stream; no step writes it (10_state.md R31, 20_memory.md R40; log entries 1, 3). -/
  bytes : Memory
  /-- `N`, the length of the input; no step writes it (10_state.md R31, 00_scope.md R7). -/
  count : Nat
  /-- `widx`, the cursor: the index of the next word to be read (10_state.md R21, R22). -/
  widx  : Nat
  /-- `LINES`, the line sink: the entries emitted so far, entry 0 first (10_state.md R26). -/
  lines : List Entry
  /-- `UNKS`, the indices of the unknown words (10_state.md R24). -/
  unks  : List Nat
  /-- `TRUNC`, the Truncated Input flag (10_state.md R23). -/
  trunc : Bool
  /-- `DONE`, the run is over (10_state.md R27). -/
  done  : Bool
  deriving DecidableEq, Repr

/-- The two conditions of the block and the information each carries (60_exceptions.md R200 to R202). -/
inductive Condition where
  /-- Unknown Instruction: the word's index and value (R202). -/
  | unknownInstruction (index : Nat) (word : Word)
  /-- Truncated Input: no information beyond the flag (R201). -/
  | truncatedInput
  deriving DecidableEq, Repr

/-- Why the machine stops. The conditions of the spec stop nothing (60_exceptions.md R208) and are not among these. -/
inductive Fault where
  /-- Raised by `step` when `DONE = 1`: the run is over and the block has no step (41_decoder.md R110). Safe. -/
  | runOver
  /-- Raised by a step whose `MemRead` is at an offset that does not exist, `>= N` (20_memory.md R40). No step makes
  such a read (R91), so this is never the answer of `step`. Safe. -/
  | offsetOutside
  /-- Raised by every instruction's meaning, and by the step on an unknown word, when `Emit(i, ...)` meets a line sink
  that does not hold exactly `i` entries: R42 requires that it does and gives no effect otherwise. In no state of a
  run (10_state.md R26). Safe. -/
  | emitOutOfOrder
  deriving DecidableEq, Repr

/-- Why an instruction has no meaning in the model. -/
inductive Refusal where
  /-- An instruction of the table without a meaning here, by its mnemonic. Raised by no arm: every row has its
  meaning. Safe. -/
  | notModelled (mnemonic : String)
  deriving DecidableEq, Repr

/-- The block right after reset: the run state at the values of 10_state.md R30; no bytes supplied yet, so `BYTES` is
empty and `N` is 0 (DESIGN CHOICE, log entry 2; the spec: "supplied by the host; not reset"). -/
def State.reset : State where
  bytes := []
  count := 0
  widx  := 0
  lines := []
  unks  := []
  trunc := false
  done  := false

end Sys2Proof.Machine
end

