-- ==== Sys2Proof/Machine/Flags.lean ====
section
/-!
DEFINITION. The status the block reports, each as the spec computes it: `W`, `TRUNC`, `UNKS`, and the guard that a
whole word remains.
-/
namespace Sys2Proof.Machine

/-- `W = floor(N / 2)`, the number of whole words (40_word_reader.md R90). -/
def wordCount (n : Nat) : Nat := n / 2

/-- `TRUNC = N mod 2` (40_word_reader.md R92, 10_state.md R23). -/
def truncFlag (n : Nat) : Bool := n % 2 == 1

/-- The guard of the decoding step: `2*widx + 1 < N` (40_word_reader.md R95). -/
def wordRemains (s : State) : Bool := decide (2 * s.widx + 1 < s.count)

/-- The indices, from `i` on, of the entries whose `UNK` bit is 1. -/
def unksFrom : Nat → List Entry → List Nat
  | _, [] => []
  | i, e :: es => if e.unk then i :: unksFrom (i + 1) es else unksFrom (i + 1) es

/-- `UNKS = [ i | UNK_i = 1 ]`, ascending, as a function of the entries (10_state.md R24, 41_decoder.md R109). -/
def unksOf (es : List Entry) : List Nat := unksFrom 0 es

end Sys2Proof.Machine
end

