-- ==== Sys2Proof/Machine/Operands.lean ====
section
/-!
DEFINITION. The text of a line: hexadecimal digits (00_scope.md R12), the operand forms (30_encoding.md R67 to R69),
the line forms (R77), the rendering of a template (R66), and the bytes of a line (41_decoder.md R105).
-/
namespace Sys2Proof.Machine

/-- `HexDigit(d)`: the character of code `0x30 + d` for `d <= 9` and `0x41 + d - 10` for `d >= 10`
(00_scope.md R12, 41_decoder.md R105, decision D5). -/
def hexDigit (d : Nibble) : Char :=
  if d.toNat ≤ 9 then Char.ofNat (0x30 + d.toNat) else Char.ofNat (0x41 + d.toNat - 10)

/-- `Hex_1(v)`. -/
def hex1 (v : Nibble) : Text := [hexDigit v]

/-- `Hex_2(v)`, most significant nibble first. -/
def hex2 (v : Byte) : Text := [hexDigit (v.extractLsb' 4 4), hexDigit (v.extractLsb' 0 4)]

/-- `Hex_3(v)`, most significant nibble first. -/
def hex3 (v : Addr) : Text :=
  [hexDigit (v.extractLsb' 8 4), hexDigit (v.extractLsb' 4 4), hexDigit (v.extractLsb' 0 4)]

/-- `Hex_4(v)`, most significant nibble first. -/
def hex4 (v : Word) : Text :=
  [hexDigit (v.extractLsb' 12 4), hexDigit (v.extractLsb' 8 4), hexDigit (v.extractLsb' 4 4),
    hexDigit (v.extractLsb' 0 4)]

/-- A register operand: `V` and one digit (30_encoding.md R67, decision D4). -/
def regText (v : Nibble) : Text := 'V' :: hex1 v

/-- A 4-bit immediate: `0x` and one digit (30_encoding.md R69). -/
def nibbleText (v : Nibble) : Text := '0' :: 'x' :: hex1 v

/-- An 8-bit immediate: `0x` and two digits (30_encoding.md R69). -/
def byteText (v : Byte) : Text := '0' :: 'x' :: hex2 v

/-- A 12-bit address: `0x` and three digits (30_encoding.md R68). -/
def addrText (v : Addr) : Text := '0' :: 'x' :: hex3 v

/-- The placeholder line of an unknown word: `0x` and four digits (30_encoding.md R76, decision D3). -/
def placeholder (w : Word) : Text := '0' :: 'x' :: hex4 w

/-- The separator between operands: a comma and one space (30_encoding.md R77). -/
def comma : Text := [',', ' ']

/-- A line with one operand: the name, one space, the operand (30_encoding.md R77). -/
def line1 (name a : Text) : Text := name ++ ' ' :: a

/-- A line with two operands (30_encoding.md R77). -/
def line2 (name a b : Text) : Text := name ++ ' ' :: (a ++ comma ++ b)

/-- A line with three operands (30_encoding.md R77). -/
def line3 (name a b c : Text) : Text := name ++ ' ' :: (a ++ comma ++ b ++ comma ++ c)

/-- The rendering of one template item on the fields of a word (30_encoding.md R66). -/
def renderItem (f : Fields) : Item → Text
  | .lit t => t
  | .fieldX => hex1 f.x
  | .fieldY => hex1 f.y
  | .fieldN => hex1 f.n
  | .fieldNN => hex2 f.nn
  | .fieldNNN => hex3 f.nnn

/-- `Render(template, w)` on the fields of `w`: the concatenation of the items' renderings, in order
(30_encoding.md R66). -/
def render : Template → Fields → Text
  | [], _ => []
  | it :: t, f => renderItem f it ++ render t f

/-- The byte of a character: its ASCII code, high bit 0 (41_decoder.md R105, decision D9). -/
def charByte (c : Char) : Byte := BitVec.ofNat 8 c.toNat

/-- The bytes of a line (41_decoder.md R105). -/
def lineBytes (t : Text) : List Byte := t.map charByte

end Sys2Proof.Machine
end

