-- ==== Sys2Proof/Machine/Ops.lean ====
section
/-!
DEFINITION. The named operations over the state: the input byte space (20_memory.md), the line sink, the cursor,
recording a condition (60_exceptions.md R208), the two arms of a step (41_decoder.md R110), and the start of a run
(70_reset_and_hazards.md R232).
-/
namespace Sys2Proof.Machine

/-! ### The byte space -/

/-- What an unlisted offset below `N` holds: the byte 0. The host supplies every byte of the stream, and the list
leaves the zero bytes out (DESIGN CHOICE, log entry 3). -/
def unlistedByte : Byte := 0#8

/-- Canonical form: offsets strictly rising, no entry equal to what an unlisted offset holds. -/
abbrev Memory.wf (m : Memory) : Prop :=
  m.Pairwise (fun c d => c.1 < d.1) ∧ ∀ c ∈ m, c.2 ≠ unlistedByte

/-- The byte a memory holds at an offset. -/
def memLookup (a : Nat) : Memory → Byte
  | [] => unlistedByte
  | c :: m => if c.1 = a then c.2 else memLookup a m

/-- An entry in front of a memory, left out where it says what an unlisted offset holds. -/
def consCell (c : Host.Cell) (m : Memory) : Memory :=
  if c.2 = unlistedByte then m else c :: m

/-- A byte put at an offset. The block itself never writes the byte space (20_memory.md R40): this serves the host's
placing of bytes before a run. -/
def memWrite (a : Nat) (b : Byte) : Memory → Memory
  | [] => consCell (a, b) []
  | c :: m =>
    if a < c.1 then consCell (a, b) (c :: m)
    else if a = c.1 then consCell (a, b) m
    else c :: memWrite a b m

/-- A byte sequence laid down from offset `a` on. -/
def loadBytes : Nat → List Byte → Memory
  | _, [] => []
  | a, b :: bs => consCell (a, b) (loadBytes (a + 1) bs)

/-- `MemRead(a, 1)`: the byte at offset `a`; an offset `>= N` does not exist (00_scope.md R11, 20_memory.md R40). -/
def readByte (s : State) (a : Nat) : Option Byte :=
  if a < s.count then some (memLookup a s.bytes) else none

/-- `MemRead(a, 2)`: the big-endian pair at offsets `a` and `a + 1` (20_memory.md R44). -/
def readWord (s : State) (a : Nat) : Option Word :=
  match readByte s a, readByte s (a + 1) with
  | some hi, some lo => some (pairBytes hi lo)
  | _, _ => none

/-- The Word Reader's read of a step: `MemRead(2*widx, 2)` (40_word_reader.md R95, 41_decoder.md R111). -/
def fetchWord (s : State) : Option Word := readWord s (2 * s.widx)

/-! ### The line sink, the cursor, the conditions -/

/-- `Emit(i, line, unk)`: requires `len(LINES) == i` and appends the entry (20_memory.md R42). Where the requirement
fails the spec gives no effect, and the model faults (log entry 4). -/
def emit (i : Nat) (line : Text) (unk : Bool) (s : State) : Host.Outcome State Fault Refusal :=
  if s.lines.length = i then .next { s with lines := s.lines ++ [⟨line, unk⟩] }
  else .fault .emitOutOfOrder

/-- `widx <- widx + 1`, the one operation that writes the cursor (10_state.md R22). -/
def advance (s : State) : State := { s with widx := s.widx + 1 }

/-- `raise`: records a condition and nothing else; control goes on where it was (60_exceptions.md R208). Unknown
Instruction appends the word's index to `UNKS` (R202); Truncated Input sets `TRUNC` (R201). -/
def raise (c : Condition) (s : State) : State :=
  match c with
  | .unknownInstruction i _ => { s with unks := s.unks ++ [i] }
  | .truncatedInput => { s with trunc := true }

/-- The numeric code of a condition (60_exceptions.md R201, R202, decision D12). -/
def conditionCode : Condition → Nat
  | .unknownInstruction _ _ => Config.condUnknown
  | .truncatedInput => Config.condTruncated

/-- What follows an outcome that is a next state. -/
def thenDo (o : Host.Outcome State Fault Refusal) (f : State → State) : Host.Outcome State Fault Refusal :=
  match o with
  | .next t => .next (f t)
  | .fault r => .fault r
  | .refused r => .refused r

/-! ### The arms of a step -/

/-- What every selected row does with its line: `Emit(widx, line, 0)`, then the cursor moves on by one word
(41_decoder.md R110; files 42, 43, 44, paragraph (a) to (d)). -/
def emitLine (line : Text) (s : State) : Host.Outcome State Fault Refusal :=
  thenDo (emit s.widx line false s) advance

/-- What a step does with a word no row matches: `Emit(widx, placeholder, 1)`, `raise UnknownInstruction(widx, w)`,
and the cursor moves on by one word (41_decoder.md R110, 60_exceptions.md R202). -/
def emitUnknown (w : Word) (s : State) : Host.Outcome State Fault Refusal :=
  thenDo (emit s.widx (placeholder w) true s) (fun t => advance (raise (.unknownInstruction s.widx w) t))

/-- The final step: Truncated Input where `N` is odd, and `DONE <- 1` (41_decoder.md R110). -/
def finish (s : State) : State :=
  let t := if truncFlag s.count then raise .truncatedInput s else s
  { t with done := true }

/-! ### The start of a run -/

/-- A reset of the run state: `widx = 0`, `LINES` and `UNKS` empty, `TRUNC = 0`, `DONE = 0`, whatever an earlier run
left (70_reset_and_hazards.md R231, R232). -/
def restart (s : State) : State :=
  { s with widx := 0, lines := [], unks := [], trunc := false, done := false }

/-- The start of a run on a byte sequence the host supplies (70_reset_and_hazards.md R232, R233). -/
def startRun (bs : List Byte) (s : State) : State :=
  { restart s with bytes := loadBytes 0 bs, count := bs.length }

/-- A word placed where the next step reads: at offsets `2*widx` and `2*widx + 1`, with `N` reaching past it and the
run not over. -/
def placeWord (w : Word) (s : State) : State :=
  { s with
    bytes := memWrite (2 * s.widx + 1) (lowByte w) (memWrite (2 * s.widx) (highByte w) s.bytes)
    count := max s.count (2 * s.widx + 2)
    done := false }

end Sys2Proof.Machine
end

