-- ==== Sys2Proof/Machine/Patterns0To7.lean ====
section
/-!
DEFINITION. The meanings of table rows 0 to 9 (42_patterns_0_to_7.md). What a row does is print its line: the step appends
(line, 0) to `LINES` and moves the cursor on by one word; nothing is executed (paragraphs (a) to (f) there,
41_decoder.md R111, R113, R114). Each line is written from the row's own 'Result'.
-/
namespace Sys2Proof.Machine

/-- Row 0, layout `00E0`: the line `CLS` (R130). -/
def execCls (s : State) : Host.Outcome State Fault Refusal :=
  emitLine ['C', 'L', 'S'] s

/-- Row 1, layout `00EE`: the line `RET` (R131). -/
def execRet (s : State) : Host.Outcome State Fault Refusal :=
  emitLine ['R', 'E', 'T'] s

/-- Row 2, layout `0NNN`: the line `SYS 0xNNN` (R132). -/
def execSysAddr (nnn : Addr) (s : State) : Host.Outcome State Fault Refusal :=
  emitLine (line1 ['S', 'Y', 'S'] (addrText nnn)) s

/-- Row 3, layout `1NNN`: the line `JP 0xNNN` (R133). The target is not followed (R113). -/
def execJpAddr (nnn : Addr) (s : State) : Host.Outcome State Fault Refusal :=
  emitLine (line1 ['J', 'P'] (addrText nnn)) s

/-- Row 4, layout `2NNN`: the line `CALL 0xNNN` (R134). -/
def execCallAddr (nnn : Addr) (s : State) : Host.Outcome State Fault Refusal :=
  emitLine (line1 ['C', 'A', 'L', 'L'] (addrText nnn)) s

/-- Row 5, layout `3XNN`: the line `SE VX, 0xNN` (R135). -/
def execSeVxByte (x : Nibble) (nn : Byte) (s : State) : Host.Outcome State Fault Refusal :=
  emitLine (line2 ['S', 'E'] (regText x) (byteText nn)) s

/-- Row 6, layout `4XNN`: the line `SNE VX, 0xNN` (R136). -/
def execSneVxByte (x : Nibble) (nn : Byte) (s : State) : Host.Outcome State Fault Refusal :=
  emitLine (line2 ['S', 'N', 'E'] (regText x) (byteText nn)) s

/-- Row 7, layout `5XY0`: the line `SE VX, VY` (R137). -/
def execSeVxVy (x y : Nibble) (s : State) : Host.Outcome State Fault Refusal :=
  emitLine (line2 ['S', 'E'] (regText x) (regText y)) s

/-- Row 8, layout `6XNN`: the line `LD VX, 0xNN` (R138). -/
def execLdVxByte (x : Nibble) (nn : Byte) (s : State) : Host.Outcome State Fault Refusal :=
  emitLine (line2 ['L', 'D'] (regText x) (byteText nn)) s

/-- Row 9, layout `7XNN`: the line `ADD VX, 0xNN` (R139). -/
def execAddVxByte (x : Nibble) (nn : Byte) (s : State) : Host.Outcome State Fault Refusal :=
  emitLine (line2 ['A', 'D', 'D'] (regText x) (byteText nn)) s

end Sys2Proof.Machine
end

