-- ==== Sys2Proof/Machine/Patterns8To9.lean ====
section
/-!
DEFINITION. The meanings of table rows 10 to 19 (43_patterns_8_to_9.md). What a row does is print its line: the step appends
(line, 0) to `LINES` and moves the cursor on by one word; nothing is executed (paragraphs (a) to (f) there,
41_decoder.md R111, R113, R114). Each line is written from the row's own 'Result'.
-/
namespace Sys2Proof.Machine

/-- Row 10, layout `8XY0`: the line `LD VX, VY` (R140). -/
def execLdVxVy (x y : Nibble) (s : State) : Host.Outcome State Fault Refusal :=
  emitLine (line2 ['L', 'D'] (regText x) (regText y)) s

/-- Row 11, layout `8XY1`: the line `OR VX, VY` (R141). -/
def execOrVxVy (x y : Nibble) (s : State) : Host.Outcome State Fault Refusal :=
  emitLine (line2 ['O', 'R'] (regText x) (regText y)) s

/-- Row 12, layout `8XY2`: the line `AND VX, VY` (R142). -/
def execAndVxVy (x y : Nibble) (s : State) : Host.Outcome State Fault Refusal :=
  emitLine (line2 ['A', 'N', 'D'] (regText x) (regText y)) s

/-- Row 13, layout `8XY3`: the line `XOR VX, VY` (R143). -/
def execXorVxVy (x y : Nibble) (s : State) : Host.Outcome State Fault Refusal :=
  emitLine (line2 ['X', 'O', 'R'] (regText x) (regText y)) s

/-- Row 14, layout `8XY4`: the line `ADD VX, VY` (R144). -/
def execAddVxVy (x y : Nibble) (s : State) : Host.Outcome State Fault Refusal :=
  emitLine (line2 ['A', 'D', 'D'] (regText x) (regText y)) s

/-- Row 15, layout `8XY5`: the line `SUB VX, VY` (R145). -/
def execSubVxVy (x y : Nibble) (s : State) : Host.Outcome State Fault Refusal :=
  emitLine (line2 ['S', 'U', 'B'] (regText x) (regText y)) s

/-- Row 16, layout `8XY6`: the line `SHR VX, VY` (R146). Both registers are printed (decision D11). -/
def execShrVxVy (x y : Nibble) (s : State) : Host.Outcome State Fault Refusal :=
  emitLine (line2 ['S', 'H', 'R'] (regText x) (regText y)) s

/-- Row 17, layout `8XY7`: the line `SUBN VX, VY` (R147). -/
def execSubnVxVy (x y : Nibble) (s : State) : Host.Outcome State Fault Refusal :=
  emitLine (line2 ['S', 'U', 'B', 'N'] (regText x) (regText y)) s

/-- Row 18, layout `8XYE`: the line `SHL VX, VY` (R148). Both registers are printed (decision D11). -/
def execShlVxVy (x y : Nibble) (s : State) : Host.Outcome State Fault Refusal :=
  emitLine (line2 ['S', 'H', 'L'] (regText x) (regText y)) s

/-- Row 19, layout `9XY0`: the line `SNE VX, VY` (R149). -/
def execSneVxVy (x y : Nibble) (s : State) : Host.Outcome State Fault Refusal :=
  emitLine (line2 ['S', 'N', 'E'] (regText x) (regText y)) s

end Sys2Proof.Machine
end

