-- ==== Sys2Proof/Machine/PatternsAToF.lean ====
section
/-!
DEFINITION. The meanings of table rows 20 to 34 (44_patterns_a_to_f.md). What a row does is print its line: the step appends
(line, 0) to `LINES` and moves the cursor on by one word; nothing is executed (paragraphs (a) to (f) there,
41_decoder.md R111, R113, R114). Each line is written from the row's own 'Result'.
-/
namespace Sys2Proof.Machine

/-- Row 20, layout `ANNN`: the line `LD I, 0xNNN` (R150). -/
def execLdIAddr (nnn : Addr) (s : State) : Host.Outcome State Fault Refusal :=
  emitLine (line2 ['L', 'D'] ['I'] (addrText nnn)) s

/-- Row 21, layout `BNNN`: the line `JP V0, 0xNNN` (R151). The `V0` is fixed text. -/
def execJpV0Addr (nnn : Addr) (s : State) : Host.Outcome State Fault Refusal :=
  emitLine (line2 ['J', 'P'] ['V', '0'] (addrText nnn)) s

/-- Row 22, layout `CXNN`: the line `RND VX, 0xNN` (R152). No random number is drawn. -/
def execRndVxByte (x : Nibble) (nn : Byte) (s : State) : Host.Outcome State Fault Refusal :=
  emitLine (line2 ['R', 'N', 'D'] (regText x) (byteText nn)) s

/-- Row 23, layout `DXYN`: the line `DRW VX, VY, 0xN` (R153). -/
def execDrwVxVyNibble (x y n : Nibble) (s : State) : Host.Outcome State Fault Refusal :=
  emitLine (line3 ['D', 'R', 'W'] (regText x) (regText y) (nibbleText n)) s

/-- Row 24, layout `EX9E`: the line `SKP VX` (R154). -/
def execSkpVx (x : Nibble) (s : State) : Host.Outcome State Fault Refusal :=
  emitLine (line1 ['S', 'K', 'P'] (regText x)) s

/-- Row 25, layout `EXA1`: the line `SKNP VX` (R155). -/
def execSknpVx (x : Nibble) (s : State) : Host.Outcome State Fault Refusal :=
  emitLine (line1 ['S', 'K', 'N', 'P'] (regText x)) s

/-- Row 26, layout `FX07`: the line `LD VX, DT` (R156). -/
def execLdVxDt (x : Nibble) (s : State) : Host.Outcome State Fault Refusal :=
  emitLine (line2 ['L', 'D'] (regText x) ['D', 'T']) s

/-- Row 27, layout `FX0A`: the line `LD VX, K` (R157). Nothing is waited for. -/
def execLdVxK (x : Nibble) (s : State) : Host.Outcome State Fault Refusal :=
  emitLine (line2 ['L', 'D'] (regText x) ['K']) s

/-- Row 28, layout `FX15`: the line `LD DT, VX` (R158). -/
def execLdDtVx (x : Nibble) (s : State) : Host.Outcome State Fault Refusal :=
  emitLine (line2 ['L', 'D'] ['D', 'T'] (regText x)) s

/-- Row 29, layout `FX18`: the line `LD ST, VX` (R159). -/
def execLdStVx (x : Nibble) (s : State) : Host.Outcome State Fault Refusal :=
  emitLine (line2 ['L', 'D'] ['S', 'T'] (regText x)) s

/-- Row 30, layout `FX1E`: the line `ADD I, VX` (R160). -/
def execAddIVx (x : Nibble) (s : State) : Host.Outcome State Fault Refusal :=
  emitLine (line2 ['A', 'D', 'D'] ['I'] (regText x)) s

/-- Row 31, layout `FX29`: the line `LD F, VX` (R161). -/
def execLdFVx (x : Nibble) (s : State) : Host.Outcome State Fault Refusal :=
  emitLine (line2 ['L', 'D'] ['F'] (regText x)) s

/-- Row 32, layout `FX33`: the line `LD B, VX` (R162). -/
def execLdBVx (x : Nibble) (s : State) : Host.Outcome State Fault Refusal :=
  emitLine (line2 ['L', 'D'] ['B'] (regText x)) s

/-- Row 33, layout `FX55`: the line `LD [I], VX` (R163). -/
def execLdIndVx (x : Nibble) (s : State) : Host.Outcome State Fault Refusal :=
  emitLine (line2 ['L', 'D'] ['[', 'I', ']'] (regText x)) s

/-- Row 34, layout `FX65`: the line `LD VX, [I]` (R164). -/
def execLdVxInd (x : Nibble) (s : State) : Host.Outcome State Fault Refusal :=
  emitLine (line2 ['L', 'D'] (regText x) ['[', 'I', ']']) s

end Sys2Proof.Machine
end

