-- ==== Sys2Proof/Machine/Step.lean ====
section
/-!
DEFINITION. One step of the sequential rendering (41_decoder.md R110) and the host's placing of an instruction word.
-/
namespace Sys2Proof.Machine

/-- `Step` (41_decoder.md R110): no step when the run is over; a whole word left is read, decoded and printed; else the
final step. -/
def step (s : State) : Host.Outcome State Fault Refusal :=
  if s.done then .fault .runOver
  else if wordRemains s then
    match fetchWord s with
    | none => .fault .offsetOutside
    | some w =>
      match decodeWord w with
      | .ok i => exec i s
      | .rejected _ => emitUnknown w s
  else .next (finish s)

/-- `s` with the word of a table row's bits where the next step reads it (log entry 6). -/
def State.withFetchWord (s : State) (nbits w : Nat) : State := placeWord (tableWord nbits w) s

end Sys2Proof.Machine
end

