-- ==== Sys2Proof/Machine/Decoder.lean ====
section
/-!
DEFINITION. The Instruction Decoder as the spec draws it: the table-driven `Decode(w)` with all its outputs
(41_decoder.md R106, 10_state.md R32), and the fixed-width line port.
-/
namespace Sys2Proof.Machine

/-- The outputs of the combinational decoder (10_state.md R32). -/
structure DecoderOut where
  hit    : Bool
  unk    : Bool
  pat    : BitVec 6
  fields : Fields
  line   : Text
  deriving DecidableEq, Repr

/-- `RenderRow(k, w)` for the row `r` of index `k` (41_decoder.md R104). -/
def renderRow (r : Row) (w : Word) : Text := render r.template (extract w)

/-- `Decode(w)` (41_decoder.md R106). -/
def decoderOut (w : Word) : DecoderOut :=
  match selectRow w with
  | some (k, r) => { hit := true, unk := false, pat := BitVec.ofNat 6 k, fields := extract w, line := renderRow r w }
  | none => { hit := false, unk := true, pat := Config.patMiss, fields := extract w, line := placeholder w }

/-- The entry a word gives the line sink: its line and its `UNK` bit (41_decoder.md R109). -/
def entryOf (w : Word) : Entry := ⟨(decoderOut w).line, (decoderOut w).unk⟩

/-- `line_len[3:0]` (10_state.md R32). -/
def lineLen (t : Text) : BitVec 4 := BitVec.ofNat 4 t.length

/-- The line port of a fixed-width build: `LINE_MAX` character positions, those past the line holding 0x00
(10_state.md R32). -/
def linePort (t : Text) : List Byte :=
  lineBytes t ++ List.replicate (Config.lineMax - t.length) 0#8

end Sys2Proof.Machine
end

