-- ==== Sys2Proof/Machine/Stream.lean ====
section
/-!
DEFINITION. The block as a function of its input: the Word Reader (40_word_reader.md), `Disassemble`
(41_decoder.md R109), the conditions of a run in order (60_exceptions.md R206), what the host sees (R209), the
reassembly a parallel build owes (R212), and `Join`, outside the block (41_decoder.md R112).
-/
namespace Sys2Proof.Machine

/-- `Words(BYTES, N)` (40_word_reader.md R90): pairs in stream order, an odd trailing byte left out (R92). -/
def words : List Byte → List Word
  | hi :: lo :: bs => pairBytes hi lo :: words bs
  | [_] => []
  | [] => []

/-- The Word Reader's outputs, `WORDS` and `TRUNC` (10_state.md R33). -/
def wordReader (bs : List Byte) : List Word × Bool := (words bs, truncFlag bs.length)

/-- The results of a run: `LINES` with the `UNK` bits, `UNKS`, `TRUNC` (41_decoder.md R109). -/
structure Results where
  lines : List Entry
  unks  : List Nat
  trunc : Bool
  deriving DecidableEq, Repr

/-- `Disassemble(BYTES, N)` (41_decoder.md R109). -/
def disassemble (bs : List Byte) : Results where
  lines := (words bs).map entryOf
  unks  := unksOf ((words bs).map entryOf)
  trunc := truncFlag bs.length

/-- What the host reads: the results, valid when `DONE = 1` (10_state.md R28, 60_exceptions.md R209). -/
def hostView (s : State) : Option Results :=
  if s.done then some ⟨s.lines, s.unks, s.trunc⟩ else none

/-- The byte sequence a state's `BYTES` and `N` stand for. -/
def streamOf (s : State) : List Byte := (List.range s.count).map (fun a => memLookup a s.bytes)

/-- The Unknown Instruction conditions of a word sequence whose first word has index `i`, in ascending index. -/
def unknownsFrom : Nat → List Word → List Condition
  | _, [] => []
  | i, w :: ws =>
    if (decoderOut w).unk then .unknownInstruction i w :: unknownsFrom (i + 1) ws else unknownsFrom (i + 1) ws

/-- The conditions of a run, in order: Unknown Instructions first, Truncated Input last (60_exceptions.md R206). -/
def conditions (bs : List Byte) : List Condition :=
  unknownsFrom 0 (words bs) ++ if truncFlag bs.length then [.truncatedInput] else []

/-- The conditions the step from `s` raises (41_decoder.md R110): at most one (60_exceptions.md R207). -/
def raisedBy (s : State) : List Condition :=
  if s.done then []
  else if wordRemains s then
    match fetchWord s with
    | some w => if (decoderOut w).unk then [.unknownInstruction s.widx w] else []
    | none => []
  else if truncFlag s.count then [.truncatedInput] else []

/-- Results of words decoded in any order, put back in index order before emission (20_memory.md R50,
70_reset_and_hazards.md R238): for every index below `n`, the result that carries it. -/
def reassemble (n : Nat) (decoded : List (Nat × Entry)) : List Entry :=
  (List.range n).filterMap (fun i => decoded.lookup i)

/-- `Join(LINES)`: one line feed between each two consecutive lines, none before the first, none after the last
(41_decoder.md R112, decision D13). Outside the block. -/
def join : List Text → Text
  | [] => []
  | [t] => t
  | t :: u :: ts => t ++ Config.lineFeed :: join (u :: ts)

end Sys2Proof.Machine
end

