-- ==== Sys2Proof/Safety.lean ====
section
/-!
DEFINITION. The terms the claims use: the spec's slices and digits on natural numbers, the state after a line, the
invariant of a run, and what a table row's rule says. A safe run of this block is one that ends with `DONE = 1`: no
condition stops it (60_exceptions.md R208).
-/
namespace Sys2Proof.Machine

/-- `w[hi:lo]`, the unsigned value of the bits `hi` down to `lo` (00_scope.md R9). -/
def slice (w : Word) (hi lo : Nat) : Nat := w.toNat / 2 ^ lo % 2 ^ (hi - lo + 1)

/-- The 16 upper-case hexadecimal digits (00_scope.md R12, decision D5). -/
def digits : Text :=
  ['0', '1', '2', '3', '4', '5', '6', '7', '8', '9', 'A', 'B', 'C', 'D', 'E', 'F']

/-- `Hex_k(v)` on a natural number: `k` digits, most significant first, leading zeros kept (00_scope.md R12). -/
def hexOf : Nat → Nat → Text
  | 0, _ => []
  | k + 1, v => hexOf k (v / 16) ++ [digits.getD (v % 16) '0']

/-- The state after the step that decodes the word at the cursor: entry `widx` appended, the index recorded where
the word is unknown, the cursor moved by one word, and nothing else changed (41_decoder.md R110). -/
def afterEntry (line : Text) (unk : Bool) (s : State) : State where
  bytes := s.bytes
  count := s.count
  widx  := s.widx + 1
  lines := s.lines ++ [⟨line, unk⟩]
  unks  := if unk then s.unks ++ [s.widx] else s.unks
  trunc := s.trunc
  done  := s.done

/-- The state after the final step: `TRUNC` set where `N` is odd, `DONE = 1`, nothing else changed
(41_decoder.md R110). -/
def afterFinal (s : State) : State where
  bytes := s.bytes
  count := s.count
  widx  := s.widx
  lines := s.lines
  unks  := s.unks
  trunc := s.trunc || truncFlag s.count
  done  := true

/-- Word `i` of the stream a state holds (40_word_reader.md R90). -/
def wordAt (s : State) (i : Nat) : Word :=
  pairBytes (memLookup (2 * i) s.bytes) (memLookup (2 * i + 1) s.bytes)

/-- The states of a run: the input in canonical form, `len(LINES) == widx` (10_state.md R26), the cursor at most `W`
(R22), entry `i` the decoding of word `i` (20_memory.md R50), `UNKS` the unknown indices (R24), `TRUNC` set by the
final step only and then exactly where `N` is odd (R23), and `DONE = 1` only at the end (R27). -/
structure RunInv (s : State) : Prop where
  bytes_wf     : Memory.wf s.bytes
  bytes_below  : ∀ c ∈ s.bytes, c.1 < s.count
  lines_length : s.lines.length = s.widx
  cursor_le    : s.widx ≤ wordCount s.count
  lines_decode : ∀ i, i < s.widx → s.lines[i]? = some (entryOf (wordAt s i))
  unks_eq      : s.unks = unksOf s.lines
  trunc_eq     : s.trunc = (s.done && truncFlag s.count)
  done_end     : s.done = true → s.widx = wordCount s.count

/-- What the rule of one table row says (the rule template of files 42, 43, 44). -/
structure RowRule where
  /-- The row index, the value of `pat`. -/
  index  : Nat
  mask   : Word
  value  : Word
  /-- Selection, as the rule writes it. -/
  selects : Word → Prop
  /-- How many words the row is selected for. -/
  selected : Nat
  /-- The line of a selected word, and its number of characters. -/
  line   : Word → Text
  length : Nat
  /-- The words the rule's corner cases call unknown. -/
  misses : Word → Prop
  /-- The other corner cases and the worked example: word and line. -/
  samples : List (Word × String)

/-- The rule holds of the model: the row's encoding, its selection and how many words it takes, what `Decode` gives
for a selected word, what a step does when it reads one, the unknown neighbours, and the samples. -/
structure RowRule.Holds (r : RowRule) : Prop where
  encoding : (table[r.index]?).map (fun t => (t.mask, t.value)) = some (r.mask, r.value)
  selection : ∀ w, matchWord w = some r.index ↔ r.selects w
  counted : ∃ ws : List Word, ws.Nodup ∧ ws.length = r.selected ∧ ∀ w, w ∈ ws ↔ r.selects w
  result : ∀ w, r.selects w →
    (decoderOut w).hit = true ∧ (decoderOut w).unk = false ∧ (decoderOut w).pat.toNat = r.index ∧
      (decoderOut w).line = r.line w ∧ (r.line w).length = r.length
  stepped : ∀ s w, r.selects w → s.done = false → fetchWord s = some w → s.lines.length = s.widx →
    step s = .next (afterEntry (r.line w) false s)
  missed : ∀ w, r.misses w →
    matchWord w = none ∧ (decoderOut w).unk = true ∧ (decoderOut w).line = "0x".toList ++ hexOf 4 w.toNat
  sampled : ∀ p ∈ r.samples, (decoderOut p.1).line = p.2.toList

/-- The word index a condition reports (60_exceptions.md R201, R202). -/
def unknownIndex : Condition → Option Nat
  | .unknownInstruction i _ => some i
  | .truncatedInput => none

/-- The conditions raised over `k` steps, in the order they are raised (60_exceptions.md R206). -/
def raisedOver : Nat → State → List Condition
  | 0, _ => []
  | k + 1, s =>
    raisedBy s ++ match step s with
      | .next t => raisedOver k t
      | .fault _ => []
      | .refused _ => []

end Sys2Proof.Machine
end

