-- ==== Sys2Proof/Certificates/Slice0/Obligations.lean ====
section
/-!
DEFINITION. The statements for the provers, each from the rules its docstring names. Slices `slice w hi lo` and digits
`hexOf k v` (Safety.lean) are the spec's own notation (00_scope.md R9, R12) on natural numbers, written apart from the
model's field extractor and renderer.
-/
namespace Sys2Proof.Machine

/-- The rules of rows 0 to 9, each in its own words (42_patterns_0_to_7.md). -/
def rowRules0To9 : List RowRule := [
  -- R130
  { index := 0, mask := 0xFFFF#16, value := 0x00E0#16, selected := 1, length := 3
    selects := fun w => w = 0x00E0#16
    line := fun _ => "CLS".toList
    misses := fun _ => False
    samples := [(0x00E1#16, "SYS 0x0E1"), (0x00DF#16, "SYS 0x0DF"), (0x01E0#16, "SYS 0x1E0"), (0x10E0#16, "JP 0x0E0"), (0x00E0#16, "CLS")] },
  -- R131
  { index := 1, mask := 0xFFFF#16, value := 0x00EE#16, selected := 1, length := 3
    selects := fun w => w = 0x00EE#16
    line := fun _ => "RET".toList
    misses := fun _ => False
    samples := [(0x00EF#16, "SYS 0x0EF"), (0x00ED#16, "SYS 0x0ED"), (0x01EE#16, "SYS 0x1EE"), (0x00EE#16, "RET")] },
  -- R132
  { index := 2, mask := 0xF000#16, value := 0x0000#16, selected := 4094, length := 9
    selects := fun w => slice w 15 12 = 0 ∧ w ≠ 0x00E0#16 ∧ w ≠ 0x00EE#16
    line := fun w => "SYS 0x".toList ++ hexOf 3 (slice w 11 0)
    misses := fun _ => False
    samples := [(0x0000#16, "SYS 0x000"), (0x0FFF#16, "SYS 0xFFF"), (0x00E1#16, "SYS 0x0E1"), (0x0123#16, "SYS 0x123")] },
  -- R133
  { index := 3, mask := 0xF000#16, value := 0x1000#16, selected := 4096, length := 8
    selects := fun w => slice w 15 12 = 0x1
    line := fun w => "JP 0x".toList ++ hexOf 3 (slice w 11 0)
    misses := fun _ => False
    samples := [(0x1234#16, "JP 0x234"), (0x1000#16, "JP 0x000"), (0x1FFF#16, "JP 0xFFF"), (0x1201#16, "JP 0x201")] },
  -- R134
  { index := 4, mask := 0xF000#16, value := 0x2000#16, selected := 4096, length := 10
    selects := fun w => slice w 15 12 = 0x2
    line := fun w => "CALL 0x".toList ++ hexOf 3 (slice w 11 0)
    misses := fun _ => False
    samples := [(0x2000#16, "CALL 0x000"), (0x2FFF#16, "CALL 0xFFF"), (0x2ABC#16, "CALL 0xABC")] },
  -- R135
  { index := 5, mask := 0xF000#16, value := 0x3000#16, selected := 4096, length := 11
    selects := fun w => slice w 15 12 = 0x3
    line := fun w => "SE V".toList ++ hexOf 1 (slice w 11 8) ++ ", 0x".toList ++ hexOf 2 (slice w 7 0)
    misses := fun _ => False
    samples := [(0x3000#16, "SE V0, 0x00"), (0x3FFF#16, "SE VF, 0xFF"), (0x3A0F#16, "SE VA, 0x0F")] },
  -- R136
  { index := 6, mask := 0xF000#16, value := 0x4000#16, selected := 4096, length := 12
    selects := fun w => slice w 15 12 = 0x4
    line := fun w => "SNE V".toList ++ hexOf 1 (slice w 11 8) ++ ", 0x".toList ++ hexOf 2 (slice w 7 0)
    misses := fun _ => False
    samples := [(0x4000#16, "SNE V0, 0x00"), (0x4FFF#16, "SNE VF, 0xFF"), (0x4B10#16, "SNE VB, 0x10")] },
  -- R137
  { index := 7, mask := 0xF00F#16, value := 0x5000#16, selected := 256, length := 9
    selects := fun w => slice w 15 12 = 0x5 ∧ slice w 3 0 = 0x0
    line := fun w => "SE V".toList ++ hexOf 1 (slice w 11 8) ++ ", V".toList ++ hexOf 1 (slice w 7 4)
    misses := fun w => slice w 15 12 = 0x5 ∧ slice w 3 0 ≠ 0
    samples := [(0x5330#16, "SE V3, V3"), (0x5AB0#16, "SE VA, VB")] },
  -- R138
  { index := 8, mask := 0xF000#16, value := 0x6000#16, selected := 4096, length := 11
    selects := fun w => slice w 15 12 = 0x6
    line := fun w => "LD V".toList ++ hexOf 1 (slice w 11 8) ++ ", 0x".toList ++ hexOf 2 (slice w 7 0)
    misses := fun _ => False
    samples := [(0x600A#16, "LD V0, 0x0A"), (0x6000#16, "LD V0, 0x00"), (0x6FFF#16, "LD VF, 0xFF")] },
  -- R139
  { index := 9, mask := 0xF000#16, value := 0x7000#16, selected := 4096, length := 12
    selects := fun w => slice w 15 12 = 0x7
    line := fun w => "ADD V".toList ++ hexOf 1 (slice w 11 8) ++ ", 0x".toList ++ hexOf 2 (slice w 7 0)
    misses := fun _ => False
    samples := [(0x7000#16, "ADD V0, 0x00"), (0x7FFF#16, "ADD VF, 0xFF"), (0x7C01#16, "ADD VC, 0x01")] }]

/-- The rules of rows 10 to 19, each in its own words (43_patterns_8_to_9.md). -/
def rowRules10To19 : List RowRule := [
  -- R140
  { index := 10, mask := 0xF00F#16, value := 0x8000#16, selected := 256, length := 9
    selects := fun w => slice w 15 12 = 0x8 ∧ slice w 3 0 = 0x0
    line := fun w => "LD V".toList ++ hexOf 1 (slice w 11 8) ++ ", V".toList ++ hexOf 1 (slice w 7 4)
    misses := fun _ => False
    samples := [(0x8000#16, "LD V0, V0"), (0x8FF0#16, "LD VF, VF"), (0x8AB0#16, "LD VA, VB")] },
  -- R141
  { index := 11, mask := 0xF00F#16, value := 0x8001#16, selected := 256, length := 9
    selects := fun w => slice w 15 12 = 0x8 ∧ slice w 3 0 = 0x1
    line := fun w => "OR V".toList ++ hexOf 1 (slice w 11 8) ++ ", V".toList ++ hexOf 1 (slice w 7 4)
    misses := fun _ => False
    samples := [(0x8001#16, "OR V0, V0"), (0x8FF1#16, "OR VF, VF"), (0x8121#16, "OR V1, V2")] },
  -- R142
  { index := 12, mask := 0xF00F#16, value := 0x8002#16, selected := 256, length := 10
    selects := fun w => slice w 15 12 = 0x8 ∧ slice w 3 0 = 0x2
    line := fun w => "AND V".toList ++ hexOf 1 (slice w 11 8) ++ ", V".toList ++ hexOf 1 (slice w 7 4)
    misses := fun _ => False
    samples := [(0x8002#16, "AND V0, V0"), (0x8FF2#16, "AND VF, VF"), (0x8232#16, "AND V2, V3")] },
  -- R143
  { index := 13, mask := 0xF00F#16, value := 0x8003#16, selected := 256, length := 10
    selects := fun w => slice w 15 12 = 0x8 ∧ slice w 3 0 = 0x3
    line := fun w => "XOR V".toList ++ hexOf 1 (slice w 11 8) ++ ", V".toList ++ hexOf 1 (slice w 7 4)
    misses := fun _ => False
    samples := [(0x8003#16, "XOR V0, V0"), (0x8FF3#16, "XOR VF, VF"), (0x8343#16, "XOR V3, V4")] },
  -- R144
  { index := 14, mask := 0xF00F#16, value := 0x8004#16, selected := 256, length := 10
    selects := fun w => slice w 15 12 = 0x8 ∧ slice w 3 0 = 0x4
    line := fun w => "ADD V".toList ++ hexOf 1 (slice w 11 8) ++ ", V".toList ++ hexOf 1 (slice w 7 4)
    misses := fun _ => False
    samples := [(0x8004#16, "ADD V0, V0"), (0x8FF4#16, "ADD VF, VF"), (0x8454#16, "ADD V4, V5")] },
  -- R145
  { index := 15, mask := 0xF00F#16, value := 0x8005#16, selected := 256, length := 10
    selects := fun w => slice w 15 12 = 0x8 ∧ slice w 3 0 = 0x5
    line := fun w => "SUB V".toList ++ hexOf 1 (slice w 11 8) ++ ", V".toList ++ hexOf 1 (slice w 7 4)
    misses := fun _ => False
    samples := [(0x8005#16, "SUB V0, V0"), (0x8FF5#16, "SUB VF, VF"), (0x8565#16, "SUB V5, V6")] },
  -- R146
  { index := 16, mask := 0xF00F#16, value := 0x8006#16, selected := 256, length := 10
    selects := fun w => slice w 15 12 = 0x8 ∧ slice w 3 0 = 0x6
    line := fun w => "SHR V".toList ++ hexOf 1 (slice w 11 8) ++ ", V".toList ++ hexOf 1 (slice w 7 4)
    misses := fun _ => False
    samples := [(0x8006#16, "SHR V0, V0"), (0x8FF6#16, "SHR VF, VF"), (0x8676#16, "SHR V6, V7")] },
  -- R147
  { index := 17, mask := 0xF00F#16, value := 0x8007#16, selected := 256, length := 11
    selects := fun w => slice w 15 12 = 0x8 ∧ slice w 3 0 = 0x7
    line := fun w => "SUBN V".toList ++ hexOf 1 (slice w 11 8) ++ ", V".toList ++ hexOf 1 (slice w 7 4)
    misses := fun w => w ∈ [0x8AB8#16]
    samples := [(0x8007#16, "SUBN V0, V0"), (0x8FF7#16, "SUBN VF, VF"), (0x8787#16, "SUBN V7, V8")] },
  -- R148
  { index := 18, mask := 0xF00F#16, value := 0x800E#16, selected := 256, length := 10
    selects := fun w => slice w 15 12 = 0x8 ∧ slice w 3 0 = 0xE
    line := fun w => "SHL V".toList ++ hexOf 1 (slice w 11 8) ++ ", V".toList ++ hexOf 1 (slice w 7 4)
    misses := fun w => w ∈ [0x8ABD#16, 0x8ABF#16]
    samples := [(0x800E#16, "SHL V0, V0"), (0x8FFE#16, "SHL VF, VF"), (0x898E#16, "SHL V9, V8")] },
  -- R149
  { index := 19, mask := 0xF00F#16, value := 0x9000#16, selected := 256, length := 10
    selects := fun w => slice w 15 12 = 0x9 ∧ slice w 3 0 = 0x0
    line := fun w => "SNE V".toList ++ hexOf 1 (slice w 11 8) ++ ", V".toList ++ hexOf 1 (slice w 7 4)
    misses := fun w => slice w 15 12 = 0x9 ∧ slice w 3 0 ≠ 0
    samples := [(0x9000#16, "SNE V0, V0"), (0x9FF0#16, "SNE VF, VF"), (0x9AB0#16, "SNE VA, VB")] }]

/-- The rules of rows 20 to 23, each in its own words (44_patterns_a_to_f.md). -/
def rowRules20To23 : List RowRule := [
  -- R150
  { index := 20, mask := 0xF000#16, value := 0xA000#16, selected := 4096, length := 11
    selects := fun w => slice w 15 12 = 0xA
    line := fun w => "LD I, 0x".toList ++ hexOf 3 (slice w 11 0)
    misses := fun _ => False
    samples := [(0xA000#16, "LD I, 0x000"), (0xAFFF#16, "LD I, 0xFFF"), (0xA123#16, "LD I, 0x123")] },
  -- R151
  { index := 21, mask := 0xF000#16, value := 0xB000#16, selected := 4096, length := 12
    selects := fun w => slice w 15 12 = 0xB
    line := fun w => "JP V0, 0x".toList ++ hexOf 3 (slice w 11 0)
    misses := fun _ => False
    samples := [(0xB000#16, "JP V0, 0x000"), (0xBFFF#16, "JP V0, 0xFFF"), (0xB300#16, "JP V0, 0x300"), (0xB00F#16, "JP V0, 0x00F")] },
  -- R152
  { index := 22, mask := 0xF000#16, value := 0xC000#16, selected := 4096, length := 12
    selects := fun w => slice w 15 12 = 0xC
    line := fun w => "RND V".toList ++ hexOf 1 (slice w 11 8) ++ ", 0x".toList ++ hexOf 2 (slice w 7 0)
    misses := fun _ => False
    samples := [(0xC000#16, "RND V0, 0x00"), (0xCFFF#16, "RND VF, 0xFF"), (0xC7FF#16, "RND V7, 0xFF")] },
  -- R153
  { index := 23, mask := 0xF000#16, value := 0xD000#16, selected := 4096, length := 15
    selects := fun w => slice w 15 12 = 0xD
    line := fun w => "DRW V".toList ++ hexOf 1 (slice w 11 8) ++ ", V".toList ++ hexOf 1 (slice w 7 4) ++ ", 0x".toList ++ hexOf 1 (slice w 3 0)
    misses := fun _ => False
    samples := [(0xD000#16, "DRW V0, V0, 0x0"), (0xDFFF#16, "DRW VF, VF, 0xF"), (0xD015#16, "DRW V0, V1, 0x5")] }]

/-- The rules of rows 24 to 34, each in its own words (44_patterns_a_to_f.md). -/
def rowRules24To34 : List RowRule := [
  -- R154
  { index := 24, mask := 0xF0FF#16, value := 0xE09E#16, selected := 16, length := 6
    selects := fun w => slice w 15 12 = 0xE ∧ slice w 7 0 = 0x9E
    line := fun w => "SKP V".toList ++ hexOf 1 (slice w 11 8)
    misses := fun w => w ∈ [0xE09F#16, 0xE09D#16, 0xE000#16]
    samples := [(0xE09E#16, "SKP V0"), (0xEF9E#16, "SKP VF"), (0xE19E#16, "SKP V1")] },
  -- R155
  { index := 25, mask := 0xF0FF#16, value := 0xE0A1#16, selected := 16, length := 7
    selects := fun w => slice w 15 12 = 0xE ∧ slice w 7 0 = 0xA1
    line := fun w => "SKNP V".toList ++ hexOf 1 (slice w 11 8)
    misses := fun w => w ∈ [0xE0A0#16, 0xE0A2#16]
    samples := [(0xE0A1#16, "SKNP V0"), (0xEFA1#16, "SKNP VF")] },
  -- R156
  { index := 26, mask := 0xF0FF#16, value := 0xF007#16, selected := 16, length := 9
    selects := fun w => slice w 15 12 = 0xF ∧ slice w 7 0 = 0x07
    line := fun w => "LD V".toList ++ hexOf 1 (slice w 11 8) ++ ", DT".toList
    misses := fun w => w ∈ [0xF000#16, 0xF006#16, 0xF008#16]
    samples := [(0xFF07#16, "LD VF, DT"), (0xF007#16, "LD V0, DT")] },
  -- R157
  { index := 27, mask := 0xF0FF#16, value := 0xF00A#16, selected := 16, length := 8
    selects := fun w => slice w 15 12 = 0xF ∧ slice w 7 0 = 0x0A
    line := fun w => "LD V".toList ++ hexOf 1 (slice w 11 8) ++ ", K".toList
    misses := fun w => w ∈ [0xF00B#16]
    samples := [(0xFF0A#16, "LD VF, K"), (0xF10A#16, "LD V1, K")] },
  -- R158
  { index := 28, mask := 0xF0FF#16, value := 0xF015#16, selected := 16, length := 9
    selects := fun w => slice w 15 12 = 0xF ∧ slice w 7 0 = 0x15
    line := fun w => "LD DT, V".toList ++ hexOf 1 (slice w 11 8)
    misses := fun w => w ∈ [0xF014#16, 0xF016#16]
    samples := [(0xF015#16, "LD DT, V0"), (0xFF15#16, "LD DT, VF"), (0xF215#16, "LD DT, V2")] },
  -- R159
  { index := 29, mask := 0xF0FF#16, value := 0xF018#16, selected := 16, length := 9
    selects := fun w => slice w 15 12 = 0xF ∧ slice w 7 0 = 0x18
    line := fun w => "LD ST, V".toList ++ hexOf 1 (slice w 11 8)
    misses := fun w => w ∈ [0xF017#16, 0xF019#16]
    samples := [(0xF018#16, "LD ST, V0"), (0xFF18#16, "LD ST, VF"), (0xF318#16, "LD ST, V3")] },
  -- R160
  { index := 30, mask := 0xF0FF#16, value := 0xF01E#16, selected := 16, length := 9
    selects := fun w => slice w 15 12 = 0xF ∧ slice w 7 0 = 0x1E
    line := fun w => "ADD I, V".toList ++ hexOf 1 (slice w 11 8)
    misses := fun w => w ∈ [0xF01F#16, 0xF01D#16]
    samples := [(0xF01E#16, "ADD I, V0"), (0xFF1E#16, "ADD I, VF"), (0xF41E#16, "ADD I, V4")] },
  -- R161
  { index := 31, mask := 0xF0FF#16, value := 0xF029#16, selected := 16, length := 8
    selects := fun w => slice w 15 12 = 0xF ∧ slice w 7 0 = 0x29
    line := fun w => "LD F, V".toList ++ hexOf 1 (slice w 11 8)
    misses := fun w => w ∈ [0xF028#16, 0xF02A#16]
    samples := [(0xF029#16, "LD F, V0"), (0xFF29#16, "LD F, VF"), (0xF529#16, "LD F, V5")] },
  -- R162
  { index := 32, mask := 0xF0FF#16, value := 0xF033#16, selected := 16, length := 8
    selects := fun w => slice w 15 12 = 0xF ∧ slice w 7 0 = 0x33
    line := fun w => "LD B, V".toList ++ hexOf 1 (slice w 11 8)
    misses := fun w => w ∈ [0xF032#16, 0xF034#16]
    samples := [(0xF033#16, "LD B, V0"), (0xFB33#16, "LD B, VB"), (0xF633#16, "LD B, V6")] },
  -- R163
  { index := 33, mask := 0xF0FF#16, value := 0xF055#16, selected := 16, length := 10
    selects := fun w => slice w 15 12 = 0xF ∧ slice w 7 0 = 0x55
    line := fun w => "LD [I], V".toList ++ hexOf 1 (slice w 11 8)
    misses := fun w => w ∈ [0xF054#16, 0xF056#16]
    samples := [(0xF055#16, "LD [I], V0"), (0xFF55#16, "LD [I], VF"), (0xF755#16, "LD [I], V7")] },
  -- R164
  { index := 34, mask := 0xF0FF#16, value := 0xF065#16, selected := 16, length := 10
    selects := fun w => slice w 15 12 = 0xF ∧ slice w 7 0 = 0x65
    line := fun w => "LD V".toList ++ hexOf 1 (slice w 11 8) ++ ", [I]".toList
    misses := fun w => w ∈ [0xF066#16, 0xF064#16, 0xFFFF#16]
    samples := [(0xF065#16, "LD V0, [I]"), (0xFF65#16, "LD VF, [I]"), (0xF865#16, "LD V8, [I]")] }]

end Sys2Proof.Machine

open Sys2Proof Sys2Proof.Machine

/-! ### Reset and the start of a run -/

/-- R232, R30: every run begins with the cursor at 0, empty `LINES` and `UNKS`, `TRUNC` and `DONE` 0, whatever an
earlier run left; a reset has the same effect (R231) and the state after reset has the same values. The spec marks these
values as its own decision D17. -/
def Obligations.StartOfRunValues : Prop :=
  (∀ bs s, startRun bs s = startRun bs State.reset) ∧
  (∀ bs s t, (t = startRun bs s ∨ t = restart s ∨ t = State.reset) →
    t.widx = 0 ∧ t.lines = [] ∧ t.unks = [] ∧ t.trunc = false ∧ t.done = false) ∧
  (∀ s, (restart s).bytes = s.bytes ∧ (restart s).count = s.count)

/-- The state after reset is a state of a run, the one on the empty stream: empty `BYTES` and `N = 0` are the model's
choice (log entry 2), the other values those of R30. -/
def Obligations.ResetMeetsInvariant : Prop := RunInv State.reset

/-- R31, R40, R233: the start of a run on any bytes is a state of a run, and its byte space is exactly these bytes:
offset `a` holds byte `a`. That an offset at or past `N` answers no byte is the model's choice (log entry 13). -/
def Obligations.StartOfRunHoldsBytes : Prop :=
  ∀ bs s, RunInv (startRun bs s) ∧ (∀ a, readByte (startRun bs s) a = bs[a]?) ∧ streamOf (startRun bs s) = bs

/-! ### The step -/

/-- A step runs the decoded instruction (R110): where the two bytes at offset `2*widx` decode to `i`, the step is
`exec i`, with nothing around it. -/
def Obligations.StepRunsDecoded : Prop :=
  ∀ s hi lo i, s.done = false → readByte s (2 * s.widx) = some hi → readByte s (2 * s.widx + 1) = some lo →
    decodeBytes [hi, lo] = .ok (i, []) → step s = exec i s

/-- R110, R202, R76: a word no row matches gives one entry, the placeholder with `UNK = 1`, its index goes into `UNKS`,
the cursor moves on by one word, and the run continues. -/
def Obligations.StepOnUnknownWord : Prop :=
  ∀ s w e, s.done = false → s.lines.length = s.widx → fetchWord s = some w → decodeWord w = .rejected e →
    e = .unknownInstruction w ∧ step s = .next (afterEntry ("0x".toList ++ hexOf 4 w.toNat) true s)

/-- R110, R201, R27: with no whole word left the step sets `TRUNC` where `N` is odd, sets `DONE`, and changes nothing
else; with `DONE = 1` there is no step. -/
def Obligations.FinalStepEndsRun : Prop :=
  (∀ s, s.done = false → s.count ≤ 2 * s.widx + 1 → step s = .next (afterFinal s)) ∧
  (∀ s, s.done = true → step s = .fault .runOver)

/-- R110 with R106: the step, made of one meaning per instruction, is the spec's step, made of the table-driven
`Decode`: on a line sink in order, a whole word left is emitted as `Decode` renders it, else the run ends. -/
def Obligations.StepIsTableStep : Prop :=
  ∀ s, s.lines.length = s.widx →
    (s.done = true → step s = .fault .runOver) ∧
    (s.done = false → 2 * s.widx + 1 < s.count →
      step s = .next (afterEntry (decoderOut (wordAt s s.widx)).line (decoderOut (wordAt s s.widx)).unk s)) ∧
    (s.done = false → ¬ 2 * s.widx + 1 < s.count → step s = .next (afterFinal s))

/-- R22, R23, R26, R31, R210, R113: what any step leaves: the input unchanged, emitted entries and recorded indices kept,
`TRUNC` never cleared; a decoding step moves the cursor by exactly one whatever the word spells, the final step leaves
the cursor, `LINES` and `UNKS` as they were. -/
def Obligations.StepKeepsWhatWasEmitted : Prop :=
  ∀ s t, step s = .next t →
    t.bytes = s.bytes ∧ t.count = s.count ∧ (∀ a, readByte t a = readByte s a) ∧
    s.done = false ∧ s.lines <+: t.lines ∧ s.unks <+: t.unks ∧ (s.trunc = true → t.trunc = true) ∧
    ((2 * s.widx + 1 < s.count ∧ t.widx = s.widx + 1 ∧ t.lines.length = s.lines.length + 1 ∧ t.trunc = s.trunc ∧
        t.done = false) ∨
      (s.count ≤ 2 * s.widx + 1 ∧ t.widx = s.widx ∧ t.lines = s.lines ∧ t.unks = s.unks ∧ t.done = true))

/-- R26, R22, R24, R23, R50: every step keeps the invariant of a run. -/
def Obligations.StepKeepsInvariant : Prop :=
  ∀ s t, RunInv s → step s = .next t → RunInv t

/-- R110, R200, R205: a state of a run that is not over has a step; nothing faults, refuses or waits. -/
def Obligations.RunNeverStuck : Prop :=
  ∀ s, RunInv s → s.done = false → ∃ t, step s = .next t

/-- R206, R209, R210: `UNKS` is ascending with no repeats and holds exactly the indices of the entries with `UNK = 1`;
`UNKS[0]` is the first of them. -/
def Obligations.UnksAscendingAndExact : Prop :=
  ∀ s, RunInv s → s.unks.Pairwise (fun i j => i < j) ∧
    (∀ i, i ∈ s.unks ↔ ∃ e, s.lines[i]? = some e ∧ e.unk = true) ∧
    s.unks.head? = s.lines.findIdx? (fun e => e.unk)

/-- R110, R109, R16: from the start of a run on any bytes, `k <= W` steps leave the first `k` entries and a run not
over; `W + 1` steps end it with the cursor at `W` and the results of `Disassemble`; then there is no step. -/
def Obligations.RunComputesDisassemble : Prop :=
  ∀ bs s,
    (∀ k, k ≤ wordCount bs.length → ∃ t, Host.Core.run Sys2Proof.core k (startRun bs s) = .next t ∧
      t.done = false ∧ t.widx = k ∧ t.lines = (disassemble bs).lines.take k) ∧
    (∃ t, Host.Core.run Sys2Proof.core (wordCount bs.length + 1) (startRun bs s) = .next t ∧
      t.widx = wordCount bs.length ∧ hostView t = some (disassemble bs)) ∧
    Host.Core.run Sys2Proof.core (wordCount bs.length + 2) (startRun bs s) = .fault .runOver

/-! ### The conditions -/

/-- R207, R208, R202, R201: a step raises at most one condition, and what it records is exactly that: the index of an
unknown word at the end of `UNKS`, or `TRUNC`. -/
def Obligations.ConditionsRecorded : Prop :=
  ∀ s t, step s = .next t →
    (raisedBy s).length ≤ 1 ∧
    t.unks = s.unks ++ (raisedBy s).filterMap unknownIndex ∧
    t.trunc = (s.trunc || decide (Condition.truncatedInput ∈ raisedBy s))

/-- R206, R109: over a run the conditions are raised in this order: Unknown Instruction once for each unknown word, in
ascending index, with the word's index and value, then Truncated Input once where `N` is odd. -/
def Obligations.ConditionsInOrder : Prop :=
  ∀ bs s, raisedOver (wordCount bs.length + 1) (startRun bs s) = conditions bs ∧
    (conditions bs).filterMap unknownIndex = (disassemble bs).unks ∧
    (∀ i w, Condition.unknownInstruction i w ∈ conditions bs ↔
      (words bs)[i]? = some w ∧ matchWord w = none) ∧
    (∃ cs, conditions bs = cs ++ (if bs.length % 2 = 1 then [.truncatedInput] else []) ∧
      .truncatedInput ∉ cs)

/-! ### The rows of the table: encoding, selection, count, result, effect, corner cases -/

/-- R130 to R139, each whole; rows 0 and 1 are tried before row 2, which also applies to their words, and row 2 is the
one row whose selection depends on the order of the table; the worked examples given as bytes. The spec marks the rows as
general knowledge (G1) and their spelling and order as its own decisions (D6, D10). -/
def Obligations.RowsZeroToNine : Prop :=
  (∀ r ∈ rowRules0To9, r.Holds) ∧
  (∀ r, table[2]? = some r → rowApplies r 0x00E0#16 = true ∧ rowApplies r 0x00EE#16 = true) ∧
  (∀ k r, k ≠ 2 → table[k]? = some r → ∀ w, rowApplies r w = true ↔ matchWord w = some k) ∧
  disassemble [0x00#8, 0xE0#8] = ⟨[⟨"CLS".toList, false⟩], [], false⟩ ∧
  disassemble [0x00#8, 0xEE#8] = ⟨[⟨"RET".toList, false⟩], [], false⟩ ∧
  disassemble [0x12#8, 0x34#8] = ⟨[⟨"JP 0x234".toList, false⟩], [], false⟩ ∧
  disassemble [0x60#8, 0x0A#8] = ⟨[⟨"LD V0, 0x0A".toList, false⟩], [], false⟩

/-- R140 to R149, each whole; the lines of row 14 differ from those of rows 9 and 30, the lines of row 19 from those of
row 6 (G1, D6, D11). -/
def Obligations.RowsTenToNineteen : Prop :=
  (∀ r ∈ rowRules10To19, r.Holds) ∧
  (∀ v w, matchWord v = some 14 → (matchWord w = some 9 ∨ matchWord w = some 30) →
    (decoderOut v).line ≠ (decoderOut w).line) ∧
  (∀ v w, matchWord v = some 19 → matchWord w = some 6 → (decoderOut v).line ≠ (decoderOut w).line)

/-- R150 to R153, each whole (G1, D6). -/
def Obligations.RowsTwentyToTwentyThree : Prop := ∀ r ∈ rowRules20To23, r.Holds

/-- R154 to R164, each whole; row 34 is the last row (G1, D6). -/
def Obligations.RowsTwentyFourToThirtyFour : Prop :=
  (∀ r ∈ rowRules24To34, r.Holds) ∧ table.length = 35

/-! ### What each instruction does: the next state, whole -/

/-- R130 to R139 'Result' with R110: on a line sink in order, each of these instructions answers the state with its
line appended, `UNK = 0`, the cursor moved by one, and nothing else changed. -/
def Obligations.CompletionRowsZeroToNine : Prop :=
  ∀ s, s.lines.length = s.widx →
    (exec .cls s = .next (afterEntry ("CLS".toList) false s)) ∧
    (exec .ret s = .next (afterEntry ("RET".toList) false s)) ∧
    (∀ nnn, exec (.sysAddr nnn) s = .next (afterEntry ("SYS 0x".toList ++ hexOf 3 nnn.toNat) false s)) ∧
    (∀ nnn, exec (.jpAddr nnn) s = .next (afterEntry ("JP 0x".toList ++ hexOf 3 nnn.toNat) false s)) ∧
    (∀ nnn, exec (.callAddr nnn) s = .next (afterEntry ("CALL 0x".toList ++ hexOf 3 nnn.toNat) false s)) ∧
    (∀ x nn, exec (.seVxByte x nn) s = .next (afterEntry ("SE V".toList ++ hexOf 1 x.toNat ++ ", 0x".toList ++ hexOf 2 nn.toNat) false s)) ∧
    (∀ x nn, exec (.sneVxByte x nn) s = .next (afterEntry ("SNE V".toList ++ hexOf 1 x.toNat ++ ", 0x".toList ++ hexOf 2 nn.toNat) false s)) ∧
    (∀ x y, exec (.seVxVy x y) s = .next (afterEntry ("SE V".toList ++ hexOf 1 x.toNat ++ ", V".toList ++ hexOf 1 y.toNat) false s)) ∧
    (∀ x nn, exec (.ldVxByte x nn) s = .next (afterEntry ("LD V".toList ++ hexOf 1 x.toNat ++ ", 0x".toList ++ hexOf 2 nn.toNat) false s)) ∧
    (∀ x nn, exec (.addVxByte x nn) s = .next (afterEntry ("ADD V".toList ++ hexOf 1 x.toNat ++ ", 0x".toList ++ hexOf 2 nn.toNat) false s))

/-- R140 to R149 'Result' with R110, in the same way. -/
def Obligations.CompletionRowsTenToNineteen : Prop :=
  ∀ s, s.lines.length = s.widx →
    (∀ x y, exec (.ldVxVy x y) s = .next (afterEntry ("LD V".toList ++ hexOf 1 x.toNat ++ ", V".toList ++ hexOf 1 y.toNat) false s)) ∧
    (∀ x y, exec (.orVxVy x y) s = .next (afterEntry ("OR V".toList ++ hexOf 1 x.toNat ++ ", V".toList ++ hexOf 1 y.toNat) false s)) ∧
    (∀ x y, exec (.andVxVy x y) s = .next (afterEntry ("AND V".toList ++ hexOf 1 x.toNat ++ ", V".toList ++ hexOf 1 y.toNat) false s)) ∧
    (∀ x y, exec (.xorVxVy x y) s = .next (afterEntry ("XOR V".toList ++ hexOf 1 x.toNat ++ ", V".toList ++ hexOf 1 y.toNat) false s)) ∧
    (∀ x y, exec (.addVxVy x y) s = .next (afterEntry ("ADD V".toList ++ hexOf 1 x.toNat ++ ", V".toList ++ hexOf 1 y.toNat) false s)) ∧
    (∀ x y, exec (.subVxVy x y) s = .next (afterEntry ("SUB V".toList ++ hexOf 1 x.toNat ++ ", V".toList ++ hexOf 1 y.toNat) false s)) ∧
    (∀ x y, exec (.shrVxVy x y) s = .next (afterEntry ("SHR V".toList ++ hexOf 1 x.toNat ++ ", V".toList ++ hexOf 1 y.toNat) false s)) ∧
    (∀ x y, exec (.subnVxVy x y) s = .next (afterEntry ("SUBN V".toList ++ hexOf 1 x.toNat ++ ", V".toList ++ hexOf 1 y.toNat) false s)) ∧
    (∀ x y, exec (.shlVxVy x y) s = .next (afterEntry ("SHL V".toList ++ hexOf 1 x.toNat ++ ", V".toList ++ hexOf 1 y.toNat) false s)) ∧
    (∀ x y, exec (.sneVxVy x y) s = .next (afterEntry ("SNE V".toList ++ hexOf 1 x.toNat ++ ", V".toList ++ hexOf 1 y.toNat) false s))

/-- R150 to R153 'Result' with R110, in the same way. -/
def Obligations.CompletionRowsTwentyToTwentyThree : Prop :=
  ∀ s, s.lines.length = s.widx →
    (∀ nnn, exec (.ldIAddr nnn) s = .next (afterEntry ("LD I, 0x".toList ++ hexOf 3 nnn.toNat) false s)) ∧
    (∀ nnn, exec (.jpV0Addr nnn) s = .next (afterEntry ("JP V0, 0x".toList ++ hexOf 3 nnn.toNat) false s)) ∧
    (∀ x nn, exec (.rndVxByte x nn) s = .next (afterEntry ("RND V".toList ++ hexOf 1 x.toNat ++ ", 0x".toList ++ hexOf 2 nn.toNat) false s)) ∧
    (∀ x y n, exec (.drwVxVyNibble x y n) s = .next (afterEntry ("DRW V".toList ++ hexOf 1 x.toNat ++ ", V".toList ++ hexOf 1 y.toNat ++ ", 0x".toList ++ hexOf 1 n.toNat) false s))

/-- R154 to R164 'Result' with R110, in the same way. -/
def Obligations.CompletionRowsTwentyFourToThirtyFour : Prop :=
  ∀ s, s.lines.length = s.widx →
    (∀ x, exec (.skpVx x) s = .next (afterEntry ("SKP V".toList ++ hexOf 1 x.toNat) false s)) ∧
    (∀ x, exec (.sknpVx x) s = .next (afterEntry ("SKNP V".toList ++ hexOf 1 x.toNat) false s)) ∧
    (∀ x, exec (.ldVxDt x) s = .next (afterEntry ("LD V".toList ++ hexOf 1 x.toNat ++ ", DT".toList) false s)) ∧
    (∀ x, exec (.ldVxK x) s = .next (afterEntry ("LD V".toList ++ hexOf 1 x.toNat ++ ", K".toList) false s)) ∧
    (∀ x, exec (.ldDtVx x) s = .next (afterEntry ("LD DT, V".toList ++ hexOf 1 x.toNat) false s)) ∧
    (∀ x, exec (.ldStVx x) s = .next (afterEntry ("LD ST, V".toList ++ hexOf 1 x.toNat) false s)) ∧
    (∀ x, exec (.addIVx x) s = .next (afterEntry ("ADD I, V".toList ++ hexOf 1 x.toNat) false s)) ∧
    (∀ x, exec (.ldFVx x) s = .next (afterEntry ("LD F, V".toList ++ hexOf 1 x.toNat) false s)) ∧
    (∀ x, exec (.ldBVx x) s = .next (afterEntry ("LD B, V".toList ++ hexOf 1 x.toNat) false s)) ∧
    (∀ x, exec (.ldIndVx x) s = .next (afterEntry ("LD [I], V".toList ++ hexOf 1 x.toNat) false s)) ∧
    (∀ x, exec (.ldVxInd x) s = .next (afterEntry ("LD V".toList ++ hexOf 1 x.toNat ++ ", [I]".toList) false s))

/-- The frame of every instruction (R43, R111, R113, R114): the input, every byte of it, `UNKS`, `TRUNC`, `DONE` and every
entry already emitted are unchanged; one entry with `UNK = 0` is appended and the cursor moves by one. -/
def Obligations.ExecFrame : Prop :=
  ∀ i s t, exec i s = .next t →
    t.bytes = s.bytes ∧ t.count = s.count ∧ (∀ a, readByte t a = readByte s a) ∧
    t.unks = s.unks ∧ t.trunc = s.trunc ∧ t.done = s.done ∧ t.widx = s.widx + 1 ∧
    ∃ line, t.lines = s.lines ++ [⟨line, false⟩]

/-- R42 with log entry 4 (the model's choice of a fault): every instruction answers a next state exactly where the line
sink holds `widx` entries, and elsewhere stops as `emitOutOfOrder`. -/
def Obligations.ExecStopsOnlyOutOfOrder : Prop :=
  ∀ i s, (s.lines.length = s.widx → ∃ t, exec i s = .next t) ∧
    (s.lines.length ≠ s.widx → exec i s = .fault .emitOutOfOrder)

/-! ### Encoding -/

/-- Decode and encode agree on every instruction: no bit of an encoding is dropped (R63). -/
def Obligations.DecodeOfEncode : Prop :=
  ∀ i, wellFormed i = true → decodeWord (encode i) = .ok i

/-- Each word has one meaning: what a word decodes to is well formed and encodes back to that word (R63, R107). -/
def Obligations.EncodeOfDecode : Prop :=
  ∀ w i, decodeWord w = .ok i → wellFormed i = true ∧ encode i = w

/-- R60, R44: on bytes, an instruction is the two bytes of its word, the high-order one first, whatever follows; fewer
than two bytes hold none. -/
def Obligations.DecodeOfEncodedBytes : Prop :=
  (∀ i rest, wellFormed i = true → decodeBytes (encodeBytes i ++ rest) = .ok (i, rest)) ∧
  (∀ bs, bs.length < 2 → decodeBytes bs = .rejected .noWholeWord)

/-- Words written out from the encodings of R130 to R164, one or more of each format. -/
def Obligations.DecodeOfSampleWords : Prop :=
  decodeWord 0b0000000011100000#16 = .ok .cls ∧
  decodeWord 0b0000000011101110#16 = .ok .ret ∧
  decodeWord 0b0000000100100011#16 = .ok (.sysAddr 0x123#12) ∧
  decodeWord 0b0011101000001111#16 = .ok (.seVxByte 0xA#4 0x0F#8) ∧
  decodeWord 0b0101101010110000#16 = .ok (.seVxVy 0xA#4 0xB#4) ∧
  decodeWord 0b1000100110001110#16 = .ok (.shlVxVy 0x9#4 0x8#4) ∧
  decodeWord 0b1011000000001111#16 = .ok (.jpV0Addr 0x00F#12) ∧
  decodeWord 0b1101000000010101#16 = .ok (.drwVxVyNibble 0#4 1#4 5#4) ∧
  decodeWord 0b1110000110011110#16 = .ok (.skpVx 1#4) ∧
  decodeWord 0b1111100001100101#16 = .ok (.ldVxInd 8#4) ∧
  decodeWord 0b0101101010111100#16 = .rejected (.unknownInstruction 0x5ABC#16)

/-- R101: `Match` gives the least index whose row applies, `w & mask == match`, and none where no row does; the table
has 35 rows. With the corner cases and the worked example. -/
def Obligations.MatchIsLeastIndex : Prop :=
  table.length = 35 ∧
  (∀ w k, matchWord w = some k ↔
    (∃ r, table[k]? = some r ∧ w &&& r.mask = r.value) ∧
    ∀ j r, j < k → table[j]? = some r → w &&& r.mask ≠ r.value) ∧
  (∀ w, matchWord w = none ↔ ∀ r ∈ table, w &&& r.mask ≠ r.value) ∧
  matchWord 0x00E0#16 = some 0 ∧ matchWord 0x00EE#16 = some 1 ∧ matchWord 0x00E1#16 = some 2 ∧
  matchWord 0x5ABC#16 = none ∧ matchWord 0x1234#16 = some 3

/-- R72, R29 (inferences the spec marks as its own): exactly two pairs of rows overlap, on one word each, and no match
value has a 1 bit outside its mask. -/
def Obligations.RowsOverlapOnTwoWordsOnly : Prop :=
  (∀ j k rj rk w, j < k → table[j]? = some rj → table[k]? = some rk →
    ((rowApplies rj w = true ∧ rowApplies rk w = true) ↔
      (j = 0 ∧ k = 2 ∧ w = 0x00E0#16) ∨ (j = 1 ∧ k = 2 ∧ w = 0x00EE#16))) ∧
  (∀ r ∈ table, r.value &&& ~~~r.mask = 0#16)

/-- R75, R73 (the spec marks the set as derived): the unknown words, by their nibbles. -/
def Obligations.UnknownSpaceExact : Prop :=
  ∀ w, matchWord w = none ↔
    (slice w 15 12 = 0x5 ∧ slice w 3 0 ≠ 0) ∨
    (slice w 15 12 = 0x8 ∧ slice w 3 0 ∈ [0x8, 0x9, 0xA, 0xB, 0xC, 0xD, 0xF]) ∨
    (slice w 15 12 = 0x9 ∧ slice w 3 0 ≠ 0) ∨
    (slice w 15 12 = 0xE ∧ slice w 7 0 ∉ [0x9E, 0xA1]) ∨
    (slice w 15 12 = 0xF ∧ slice w 7 0 ∉ [0x07, 0x0A, 0x15, 0x18, 0x1E, 0x29, 0x33, 0x55, 0x65])

/-- R103: the five fields of every word are its slices; the overlaps; the worked example. -/
def Obligations.ExtractIsSlices : Prop :=
  (∀ w, (extract w).x.toNat = slice w 11 8 ∧ (extract w).y.toNat = slice w 7 4 ∧
    (extract w).n.toNat = slice w 3 0 ∧ (extract w).nn.toNat = slice w 7 0 ∧ (extract w).nnn.toNat = slice w 11 0) ∧
  (∀ w, (extract w).nn = ((extract w).y.setWidth 8 <<< 4) ||| (extract w).n.setWidth 8 ∧
    (extract w).nnn = ((extract w).x.setWidth 12 <<< 8) ||| (extract w).nn.setWidth 12) ∧
  extract 0xD015#16 = ⟨0x0#4, 0x1#4, 0x5#4, 0x15#8, 0x015#12⟩

/-! ### The decoder's outputs and the text of a line -/

/-- R106: `Decode` on a hit and on a miss, for every word; Unknown Instruction exactly on a miss; the examples. -/
def Obligations.DecodeHitAndMiss : Prop :=
  (∀ w, (decoderOut w).fields = extract w) ∧
  (∀ w k r, matchWord w = some k → table[k]? = some r →
    (decoderOut w).hit = true ∧ (decoderOut w).unk = false ∧ (decoderOut w).pat.toNat = k ∧
      (decoderOut w).line = renderRow r w) ∧
  (∀ w, matchWord w = none →
    (decoderOut w).hit = false ∧ (decoderOut w).unk = true ∧ (decoderOut w).pat.toNat = 63 ∧
      (decoderOut w).line = "0x".toList ++ hexOf 4 w.toNat) ∧
  (∀ w, (decoderOut w).unk = true ↔ matchWord w = none) ∧
  (decoderOut 0x5ABC#16).line = "0x5ABC".toList ∧
  (decoderOut 0x00E0#16).hit = true ∧ (decoderOut 0x00E0#16).pat.toNat = 0 ∧
  (decoderOut 0x00E0#16).line = "CLS".toList

/-- R76: the placeholder line of an unknown word, six characters, with `hit = 0`, `unk = 1`, `pat = 63`; a line begins
with `0` exactly when it is a placeholder. -/
def Obligations.PlaceholderLine : Prop :=
  (∀ w, matchWord w = none →
    (decoderOut w).line = "0x".toList ++ hexOf 4 w.toNat ∧ (decoderOut w).line.length = 6 ∧
      (decoderOut w).hit = false ∧ (decoderOut w).unk = true ∧ (decoderOut w).pat.toNat = 63) ∧
  (∀ w, (decoderOut w).line.head? = some '0' ↔ (decoderOut w).unk = true) ∧
  (decoderOut 0x5ABC#16).line = "0x5ABC".toList ∧ (decoderOut 0xF000#16).line = "0xF000".toList

/-- R8, R77, R42, R104: every line has 3 to 15 characters, all in the stated set, so no newline, and no space at
either end. -/
def Obligations.LineShape : Prop :=
  ∀ w, 3 ≤ (decoderOut w).line.length ∧ (decoderOut w).line.length ≤ 15 ∧
    (∀ c ∈ (decoderOut w).line, c ∈ "0123456789ABCDEFGHIJKLMNOPQRSTUVWXYZx,[] ".toList) ∧
    (decoderOut w).line.head? ≠ some ' ' ∧ (decoderOut w).line.getLast? ≠ some ' '

/-- R107 (the spec marks it as derived): two different words never give the same line. -/
def Obligations.LineTellsTheWord : Prop :=
  ∀ v w, (decoderOut v).line = (decoderOut w).line → v = w

/-- R66: `Render` takes the items in order, a literal as it stands, a placeholder as the digits of its slice. -/
def Obligations.RenderTemplate : Prop :=
  (∀ f, render [] f = []) ∧
  (∀ a b f, render (a ++ b) f = render a f ++ render b f) ∧
  (∀ t f, render [.lit t] f = t) ∧
  (∀ w, render [.fieldX] (extract w) = hexOf 1 (slice w 11 8) ∧
    render [.fieldY] (extract w) = hexOf 1 (slice w 7 4) ∧
    render [.fieldN] (extract w) = hexOf 1 (slice w 3 0) ∧
    render [.fieldNN] (extract w) = hexOf 2 (slice w 7 0) ∧
    render [.fieldNNN] (extract w) = hexOf 3 (slice w 11 0)) ∧
  (∀ r ∈ table, ∀ w, renderRow r w = render r.template (extract w))

/-- R67, R68, R69: the operand forms: always two characters for a register, five for an address, four for a byte,
three for a nibble, leading zeros kept. -/
def Obligations.OperandForms : Prop :=
  (∀ v, regText v = "V".toList ++ hexOf 1 v.toNat ∧ (regText v).length = 2) ∧
  (∀ v, addrText v = "0x".toList ++ hexOf 3 v.toNat ∧ (addrText v).length = 5) ∧
  (∀ v, byteText v = "0x".toList ++ hexOf 2 v.toNat ∧ (byteText v).length = 4) ∧
  (∀ v, nibbleText v = "0x".toList ++ hexOf 1 v.toNat ∧ (nibbleText v).length = 3) ∧
  regText 0#4 = "V0".toList ∧ regText 9#4 = "V9".toList ∧ regText 10#4 = "VA".toList ∧ regText 15#4 = "VF".toList ∧
  addrText 0x000#12 = "0x000".toList ∧ addrText 0x234#12 = "0x234".toList ∧ addrText 0xFFF#12 = "0xFFF".toList ∧
  byteText 0x0A#8 = "0x0A".toList ∧
  nibbleText 5#4 = "0x5".toList ∧ nibbleText 15#4 = "0xF".toList ∧ nibbleText 0#4 = "0x0".toList

/-- R105: the bytes of a line are its characters' ASCII codes, and `HexDigit(d)` is the byte `0x30 + d` or
`0x41 + d - 10`. -/
def Obligations.CharacterCodes : Prop :=
  (∀ t u, lineBytes (t ++ u) = lineBytes t ++ lineBytes u) ∧
  lineBytes "0123456789".toList =
    [0x30#8, 0x31#8, 0x32#8, 0x33#8, 0x34#8, 0x35#8, 0x36#8, 0x37#8, 0x38#8, 0x39#8] ∧
  lineBytes "ABCDEFGHIJKLMNOPQRSTUVWXYZ".toList =
    [0x41#8, 0x42#8, 0x43#8, 0x44#8, 0x45#8, 0x46#8, 0x47#8, 0x48#8, 0x49#8, 0x4A#8, 0x4B#8, 0x4C#8, 0x4D#8,
      0x4E#8, 0x4F#8, 0x50#8, 0x51#8, 0x52#8, 0x53#8, 0x54#8, 0x55#8, 0x56#8, 0x57#8, 0x58#8, 0x59#8, 0x5A#8] ∧
  lineBytes "x ,[]".toList = [0x78#8, 0x20#8, 0x2C#8, 0x5B#8, 0x5D#8] ∧
  (∀ d : Nibble, (charByte (hexDigit d)).toNat = if d.toNat ≤ 9 then 0x30 + d.toNat else 0x41 + d.toNat - 10)

/-- R32: the fixed-width line port has 15 positions, the line's bytes and then zeros, and `line_len` is the line's
length. -/
def Obligations.LinePortPadded : Prop :=
  ∀ w, (linePort (decoderOut w).line).length = 15 ∧
    (lineLen (decoderOut w).line).toNat = (decoderOut w).line.length ∧
    (∀ (i : Nat) (c : Char), (decoderOut w).line[i]? = some c → (linePort (decoderOut w).line)[i]? = some (charByte c)) ∧
    (∀ i : Nat, (decoderOut w).line.length ≤ i → i < 15 → (linePort (decoderOut w).line)[i]? = some 0#8)

/-! ### The Word Reader and the whole stream -/

/-- R44: `MemRead(a, 2)` is the big-endian pair of the bytes at `a` and `a + 1`. That a read at or past `N` answers no
byte is the model's choice (log entry 13): the spec says only that such an offset is never presented (R40). -/
def Obligations.MemReadBigEndian : Prop :=
  (∀ s a hi lo, readByte s a = some hi → readByte s (a + 1) = some lo →
    ∃ w, readWord s a = some w ∧ w = ((hi.setWidth 16) <<< 8) ||| lo.setWidth 16 ∧
      w.toNat = hi.toNat * 256 + lo.toNat) ∧
  (∀ s a, s.count ≤ a → readByte s a = none)

/-- R90: `W = floor(N/2)` words, word `i` the big-endian pair at offsets `2i` and `2i + 1`; every word value arises;
the worked example. -/
def Obligations.WordsOfStream : Prop :=
  (∀ bs, (words bs).length = bs.length / 2) ∧
  (∀ bs i hi lo, bs[2 * i]? = some hi → bs[2 * i + 1]? = some lo →
    ∃ w, (words bs)[i]? = some w ∧ w.toNat = hi.toNat * 256 + lo.toNat) ∧
  (∀ w, words (wordBytes w) = [w]) ∧
  words [0x12#8, 0x34#8] = [0x1234#16]

/-- R91 (in part the spec's own inference): `Words` of a sequence is `Words` of its even-length initial part, and
`Words` distributes over concatenation at even boundaries. -/
def Obligations.WordsOfParts : Prop :=
  (∀ bs, words (bs.take (2 * (bs.length / 2))) = words bs) ∧
  (∀ as bs, as.length % 2 = 0 → words (as ++ bs) = words as ++ words bs)

/-- R92: an odd trailing byte is consumed into no word, sets `TRUNC`, and its value affects nothing; the corner cases
and the worked example. -/
def Obligations.OddByteAffectsNothing : Prop :=
  (∀ bs, (wordReader bs).2 = decide (bs.length % 2 = 1)) ∧
  (∀ bs b, bs.length % 2 = 0 →
    wordReader (bs ++ [b]) = (words bs, true) ∧
    (disassemble (bs ++ [b])).lines = (disassemble bs).lines ∧
    (disassemble (bs ++ [b])).unks = (disassemble bs).unks) ∧
  (∀ b, wordReader [b] = ([], true)) ∧
  (∀ a b c, wordReader [a, b, c] = ([pairBytes a b], true)) ∧
  wordReader [0x00#8, 0xE0#8, 0x12#8] = ([0x00E0#16], true)

/-- R93: the empty input gives no word, `TRUNC = 0`, no line and no condition. -/
def Obligations.EmptyInput : Prop :=
  wordReader [] = ([], false) ∧ disassemble [] = ⟨[], [], false⟩ ∧ conditions [] = []

/-- R109: `Disassemble`: one entry per word, from that word alone; the indices of the unknown ones, ascending; `TRUNC`;
the conditions: Unknown Instruction once for each `i` in `UNKS`, with `(i, WORDS[i])`, then Truncated Input once where `N`
is odd; the corner cases and the worked example. That a run of steps raises these conditions is ConditionsInOrder. -/
def Obligations.DisassembleLaw : Prop :=
  (∀ bs, (disassemble bs).lines.length = bs.length / 2 ∧
    (∀ (i : Nat) (w : Word), (words bs)[i]? = some w →
      (disassemble bs).lines[i]? = some (Entry.mk (decoderOut w).line (decoderOut w).unk)) ∧
    (disassemble bs).unks.Pairwise (fun i j => i < j) ∧
    (∀ i, i ∈ (disassemble bs).unks ↔ ∃ w, (words bs)[i]? = some w ∧ (decoderOut w).unk = true) ∧
    (disassemble bs).trunc = decide (bs.length % 2 = 1)) ∧
  (∀ bs, conditions bs =
    (disassemble bs).unks.map (fun i => Condition.unknownInstruction i ((words bs).getD i 0#16)) ++
      (if bs.length % 2 = 1 then [.truncatedInput] else [])) ∧
  (∀ bs, (∀ w ∈ words bs, matchWord w = none) → (disassemble bs).unks = List.range (bs.length / 2)) ∧
  disassemble [] = ⟨[], [], false⟩ ∧
  (∀ b, disassemble [b] = ⟨[], [], true⟩) ∧
  disassemble [0x00#8, 0xE0#8, 0x00#8, 0xEE#8] = ⟨[⟨"CLS".toList, false⟩, ⟨"RET".toList, false⟩], [], false⟩

/-- R80, R108, R50: entry `i` depends on the bytes at offsets `2i` and `2i + 1` and on nothing else: two streams that
agree there give the same entry, whatever else they hold and however long they are. -/
def Obligations.EntryDependsOnItsWordOnly : Prop :=
  ∀ (as bs : List Byte) (i : Nat), as[2 * i]? = bs[2 * i]? → as[2 * i + 1]? = bs[2 * i + 1]? →
    (disassemble as).lines[i]? = (disassemble bs).lines[i]?

/-- R212, R50, R238: words decoded in any order and put back in index order give the lines of `Disassemble`. -/
def Obligations.AnyDecodingOrderSameLines : Prop :=
  ∀ (bs : List Byte) (order : List Nat), order.Perm (List.range (wordCount bs.length)) →
    reassemble (wordCount bs.length) (order.map (fun i => (i, entryOf ((words bs).getD i 0#16)))) =
      (disassemble bs).lines

/-- R112: `Join` puts one line feed between each two consecutive lines and none elsewhere: cutting the text at the line
feeds gives the lines back, and no line of the block holds one. -/
def Obligations.JoinKeepsTheLines : Prop :=
  join [] = [] ∧
  (∀ bs, (disassemble bs).lines ≠ [] →
    (join ((disassemble bs).lines.map (·.line))).splitOn Config.lineFeed = (disassemble bs).lines.map (·.line)) ∧
  lineBytes (join ["CLS".toList, "RET".toList]) = [0x43#8, 0x4C#8, 0x53#8, 0x0A#8, 0x52#8, 0x45#8, 0x54#8]

/-- The model's own (log entry 6): a word placed for the next step in a byte space in canonical form is what the step
fetches. The whole placed state: the byte space stays in that form and holds what it held at every offset but the word's
two, `N` is raised to `2*widx + 2` where it was less, `DONE` is 0, and the cursor, `LINES`, `UNKS` and `TRUNC` are
unchanged. -/
def Obligations.PlacedWordIsFetched : Prop :=
  ∀ s (w : Word), Memory.wf s.bytes →
    fetchWord (s.withFetchWord 16 w.toNat) = some w ∧ Memory.wf (s.withFetchWord 16 w.toNat).bytes ∧
    (∀ a, a ≠ 2 * s.widx → a ≠ 2 * s.widx + 1 →
      memLookup a (s.withFetchWord 16 w.toNat).bytes = memLookup a s.bytes) ∧
    (∀ a, a < s.count → a ≠ 2 * s.widx → a ≠ 2 * s.widx + 1 →
      readByte (s.withFetchWord 16 w.toNat) a = readByte s a) ∧
    (s.withFetchWord 16 w.toNat).count = max s.count (2 * s.widx + 2) ∧
    (s.withFetchWord 16 w.toNat).done = false ∧
    (s.withFetchWord 16 w.toNat).widx = s.widx ∧ (s.withFetchWord 16 w.toNat).lines = s.lines ∧
    (s.withFetchWord 16 w.toNat).unks = s.unks ∧ (s.withFetchWord 16 w.toNat).trunc = s.trunc ∧
    (∀ i, decodeWord w = .ok i → step (s.withFetchWord 16 w.toNat) = exec i (s.withFetchWord 16 w.toNat))
end

