-- ==== Sys2Proof/Laws/Text.lean ====
section
/-!
SUPPORT. The digits of the model against the spec's `Hex_k` on natural numbers (00_scope.md R12), the rendering of
templates, and the field extractor against the spec's slices (R9).
-/
namespace Sys2Proof.Machine

theorem hexDigit_eq : ∀ d : Nibble, hexDigit d = digits.getD d.toNat '0' := by decide

theorem hexDigit_ne_space : ∀ d : Nibble, hexDigit d ≠ ' ' := by decide

theorem hexDigit_mem : ∀ d : Nibble, hexDigit d ∈ digits := by decide

/-- `HexDigit` tells its argument. -/
theorem hexDigit_inj : ∀ c d : Nibble, hexDigit c = hexDigit d → c = d := by decide

theorem length_hexOf (k v : Nat) : (hexOf k v).length = k := by
  induction k generalizing v with
  | zero => rfl
  | succ k ih => simp [hexOf, ih]

theorem toNat_extract (w : BitVec n) (lo len : Nat) :
    (w.extractLsb' lo len).toNat = w.toNat / 2 ^ lo % 2 ^ len := by
  simp [BitVec.extractLsb'_toNat, Nat.shiftRight_eq_div_pow]

theorem hex1_eq (v : Nibble) : hex1 v = hexOf 1 v.toNat := by
  have h : v.toNat < 16 := v.isLt
  simp [hex1, hexOf, hexDigit_eq, Nat.mod_eq_of_lt h]

theorem hex2_eq (v : Byte) : hex2 v = hexOf 2 v.toNat := by
  simp [hex2, hexOf, hexDigit_eq, Nat.shiftRight_eq_div_pow]

theorem hex3_eq (v : Addr) : hex3 v = hexOf 3 v.toNat := by
  simp [hex3, hexOf, hexDigit_eq, Nat.shiftRight_eq_div_pow, Nat.div_div_eq_div_mul]

theorem hex4_eq (v : Word) : hex4 v = hexOf 4 v.toNat := by
  simp [hex4, hexOf, hexDigit_eq, Nat.shiftRight_eq_div_pow, Nat.div_div_eq_div_mul]

theorem placeholder_eq (w : Word) : placeholder w = "0x".toList ++ hexOf 4 w.toNat := by
  simp [placeholder, hex4_eq]

@[simp] theorem length_hex1 (v : Nibble) : (hex1 v).length = 1 := rfl
@[simp] theorem length_hex2 (v : Byte) : (hex2 v).length = 2 := rfl
@[simp] theorem length_hex3 (v : Addr) : (hex3 v).length = 3 := rfl
@[simp] theorem length_hex4 (v : Word) : (hex4 v).length = 4 := rfl

@[simp] theorem render_nil (f : Fields) : render [] f = [] := rfl
@[simp] theorem render_cons (it : Item) (t : Template) (f : Fields) :
    render (it :: t) f = renderItem f it ++ render t f := rfl

end Sys2Proof.Machine
end

