-- ==== Sys2Proof/Laws/Decode.lean ====
section
/-!
SUPPORT. Words as four nibbles, when a row applies in terms of the nibbles, what the matcher can answer, and how the
decoder, the matcher and `Decode` hang together.
-/
namespace Sys2Proof.Machine

/-! ### Words and nibbles -/

theorem append_inj_iff {m n : Nat} (a a' : BitVec m) (b b' : BitVec n) :
    a ++ b = a' ++ b' ↔ a = a' ∧ b = b' := by
  constructor
  · intro h
    have hl := congrArg (fun v => v.extractLsb' n m) h
    have hr := congrArg (fun v => v.extractLsb' 0 n) h
    exact ⟨by simpa [BitVec.extractLsb'_append_eq_left] using hl, by simpa [BitVec.extractLsb'_append_eq_right] using hr⟩
  · rintro ⟨rfl, rfl⟩; rfl

/-- A word is its four nibbles, most significant first (00_scope.md R9). -/
theorem word_eq_nibbles (w : Word) :
    w = w.extractLsb' 12 4 ++ (w.extractLsb' 8 4 ++ (w.extractLsb' 4 4 ++ w.extractLsb' 0 4)) := by
  apply BitVec.eq_of_getLsbD_eq
  intro i hi
  simp only [BitVec.getLsbD_append, BitVec.getLsbD_extractLsb']
  grind

/-- The word with the given nibbles, most significant first. -/
def ofNibbles (a b c d : Nibble) : Word := a ++ (b ++ (c ++ d))

theorem exists_nibbles (w : Word) : ∃ a b c d : Nibble, w = ofNibbles a b c d :=
  ⟨_, _, _, _, word_eq_nibbles w⟩

theorem ofNibbles_inj {a b c d a' b' c' d' : Nibble} :
    ofNibbles a b c d = ofNibbles a' b' c' d' ↔ a = a' ∧ b = b' ∧ c = c' ∧ d = d' := by
  unfold ofNibbles
  rw [append_inj_iff, append_inj_iff, append_inj_iff]

@[simp] theorem nibble3 (a b c d : Nibble) : (ofNibbles a b c d).extractLsb' 12 4 = a :=
  BitVec.extractLsb'_append_eq_left

@[simp] theorem nibble2 (a b c d : Nibble) : (ofNibbles a b c d).extractLsb' 8 4 = b := by
  unfold ofNibbles
  rw [BitVec.extractLsb'_append_eq_of_add_le (by decide)]
  exact BitVec.extractLsb'_append_eq_left

@[simp] theorem nibble1 (a b c d : Nibble) : (ofNibbles a b c d).extractLsb' 4 4 = c := by
  unfold ofNibbles
  rw [BitVec.extractLsb'_append_eq_of_add_le (by decide), BitVec.extractLsb'_append_eq_of_add_le (by decide)]
  exact BitVec.extractLsb'_append_eq_left

@[simp] theorem nibble0 (a b c d : Nibble) : (ofNibbles a b c d).extractLsb' 0 4 = d := by
  unfold ofNibbles
  rw [BitVec.extractLsb'_append_eq_of_add_le (by decide), BitVec.extractLsb'_append_eq_of_add_le (by decide)]
  exact BitVec.extractLsb'_append_eq_right

@[simp] theorem low8 (a b c d : Nibble) : (ofNibbles a b c d).extractLsb' 0 8 = c ++ d := by
  unfold ofNibbles
  rw [BitVec.extractLsb'_append_eq_of_add_le (by decide)]
  exact BitVec.extractLsb'_append_eq_right

@[simp] theorem low12 (a b c d : Nibble) : (ofNibbles a b c d).extractLsb' 0 12 = b ++ (c ++ d) :=
  BitVec.extractLsb'_append_eq_right

theorem toNat_ofNibbles (a b c d : Nibble) :
    (ofNibbles a b c d).toNat = a.toNat * 4096 + b.toNat * 256 + c.toNat * 16 + d.toNat := by
  have h3 := congrArg BitVec.toNat (nibble3 a b c d)
  have h2 := congrArg BitVec.toNat (nibble2 a b c d)
  have h1 := congrArg BitVec.toNat (nibble1 a b c d)
  have h0 := congrArg BitVec.toNat (nibble0 a b c d)
  rw [toNat_extract] at h3 h2 h1 h0
  have hw : (ofNibbles a b c d).toNat < 65536 := (ofNibbles a b c d).isLt
  omega

/-- The spec's slices of a word given by its nibbles (00_scope.md R9). -/
theorem slice_nibbles (a b c d : Nibble) :
    slice (ofNibbles a b c d) 15 12 = a.toNat ∧ slice (ofNibbles a b c d) 11 8 = b.toNat ∧
      slice (ofNibbles a b c d) 7 4 = c.toNat ∧ slice (ofNibbles a b c d) 3 0 = d.toNat ∧
      slice (ofNibbles a b c d) 7 0 = c.toNat * 16 + d.toNat ∧
      slice (ofNibbles a b c d) 11 0 = b.toNat * 256 + c.toNat * 16 + d.toNat := by
  have ha : a.toNat < 16 := a.isLt
  have hb : b.toNat < 16 := b.isLt
  have hc : c.toNat < 16 := c.isLt
  have hd : d.toNat < 16 := d.isLt
  simp only [slice, toNat_ofNibbles]
  omega

/-- The five fields of a word given by its nibbles (41_decoder.md R103: `NN = Y ++ N`, `NNN = X ++ Y ++ N`). -/
@[simp] theorem extract_nibbles (a b c d : Nibble) :
    extract (ofNibbles a b c d) = ⟨b, c, d, c ++ d, b ++ (c ++ d)⟩ := by
  simp [extract]

/-- A row applies to a word nibble by nibble. -/
theorem rowApplies_nibbles (r : Row) (a b c d : Nibble) :
    rowApplies r (ofNibbles a b c d) =
      decide (a &&& r.mask.extractLsb' 12 4 = r.value.extractLsb' 12 4 ∧
        b &&& r.mask.extractLsb' 8 4 = r.value.extractLsb' 8 4 ∧
        c &&& r.mask.extractLsb' 4 4 = r.value.extractLsb' 4 4 ∧
        d &&& r.mask.extractLsb' 0 4 = r.value.extractLsb' 0 4) := by
  obtain ⟨m3, m2, m1, m0, hm⟩ := exists_nibbles r.mask
  obtain ⟨v3, v2, v1, v0, hv⟩ := exists_nibbles r.value
  have hand : ofNibbles a b c d &&& ofNibbles m3 m2 m1 m0 =
      ofNibbles (a &&& m3) (b &&& m2) (c &&& m1) (d &&& m0) := by
    unfold ofNibbles
    rw [BitVec.and_append, BitVec.and_append, BitVec.and_append]
  rw [Bool.eq_iff_iff]
  simp only [rowApplies, hm, hv, hand, beq_iff_eq, ofNibbles_inj, decide_eq_true_eq, nibble3, nibble2, nibble1,
    nibble0]

/-! ### Words split at the operand fields, under the five masks with an operand (30_encoding.md R62) -/

theorem and_opcode (v : Nibble) (nnn : Addr) : (v ++ nnn : Word) &&& 0xF000#16 = v ++ 0#12 := by
  have : 0xF000#16 = 0xF#4 ++ 0#12 := rfl
  rw [this, BitVec.and_append, show (0xF#4 : Nibble) = BitVec.allOnes 4 from rfl,
    BitVec.and_allOnes, BitVec.and_zero]

theorem and_opcode_byte (v x : Nibble) (nn : Byte) : (v ++ x ++ nn : Word) &&& 0xF000#16 = v ++ 0#12 := by
  have : 0xF000#16 = 0xF#4 ++ 0#4 ++ 0#8 := rfl
  rw [this, BitVec.and_append, BitVec.and_append, show (0xF#4 : Nibble) = BitVec.allOnes 4 from rfl,
    BitVec.and_allOnes, BitVec.and_zero, BitVec.and_zero]
  revert v; decide

theorem and_opcode_nibbles (v x y n : Nibble) : (v ++ x ++ y ++ n : Word) &&& 0xF000#16 = v ++ 0#12 := by
  have : 0xF000#16 = 0xF#4 ++ 0#4 ++ 0#4 ++ 0#4 := rfl
  rw [this, BitVec.and_append, BitVec.and_append, BitVec.and_append, show (0xF#4 : Nibble) = BitVec.allOnes 4 from rfl,
    BitVec.and_allOnes, BitVec.and_zero, BitVec.and_zero, BitVec.and_zero]
  revert v; decide

theorem and_opcode_sub (v x y k : Nibble) : (v ++ x ++ y ++ k : Word) &&& 0xF00F#16 = v ++ 0#8 ++ k := by
  have : 0xF00F#16 = 0xF#4 ++ 0#4 ++ 0#4 ++ 0xF#4 := rfl
  rw [this, BitVec.and_append, BitVec.and_append, BitVec.and_append, show (0xF#4 : Nibble) = BitVec.allOnes 4 from rfl,
    BitVec.and_allOnes, BitVec.and_zero, BitVec.and_zero, BitVec.and_allOnes]
  revert v k; decide

theorem and_opcode_low (v x : Nibble) (k : Byte) : (v ++ x ++ k : Word) &&& 0xF0FF#16 = v ++ 0#4 ++ k := by
  have : 0xF0FF#16 = 0xF#4 ++ 0#4 ++ 0xFF#8 := rfl
  rw [this, BitVec.and_append, BitVec.and_append, show (0xF#4 : Nibble) = BitVec.allOnes 4 from rfl,
    BitVec.and_allOnes, BitVec.and_zero,
    show (0xFF#8 : Byte) = BitVec.allOnes 8 from rfl,
    BitVec.and_allOnes]

/-! ### The matcher -/

theorem matchFrom_cons (k : Nat) (r : Row) (rs : List Row) (w : Word) :
    matchFrom k (r :: rs) w = if rowApplies r w then some (k, r) else matchFrom (k + 1) rs w := rfl

/-- All that the matcher loop can answer: the first row that applies, with its index counted from `k`. -/
theorem matchFrom_eq_some {k : Nat} {rs : List Row} {w : Word} {j : Nat} {r : Row}
    (h : matchFrom k rs w = some (j, r)) :
    ∃ i, j = k + i ∧ rs[i]? = some r ∧ rowApplies r w = true ∧
      ∀ i' r', i' < i → rs[i']? = some r' → rowApplies r' w = false := by
  induction rs generalizing k with
  | nil => cases h
  | cons r0 rs ih =>
    rw [matchFrom_cons] at h
    split at h
    · next h0 =>
      obtain ⟨rfl, rfl⟩ := by simpa using h
      exact ⟨0, rfl, rfl, h0, by simp⟩
    · next h0 =>
      obtain ⟨i, rfl, hi, ha, hb⟩ := ih h
      refine ⟨i + 1, by omega, by simpa using hi, ha, fun i' r' hlt hr' => ?_⟩
      cases i' with
      | zero => simp only [List.getElem?_cons_zero, Option.some.injEq] at hr'; subst hr'; simpa using h0
      | succ i' => exact hb i' r' (by omega) (by simpa using hr')

/-- The matcher loop answers none exactly where no row applies. -/
theorem matchFrom_eq_none {k : Nat} {rs : List Row} {w : Word} :
    matchFrom k rs w = none ↔ ∀ r ∈ rs, rowApplies r w = false := by
  induction rs generalizing k with
  | nil => simp [matchFrom]
  | cons r0 rs ih =>
    rw [matchFrom_cons]
    by_cases h0 : rowApplies r0 w <;> simp [h0, ih]

/-- Two rows that apply to one word agree under the AND of their masks (30_encoding.md R72). -/
theorem rowApplies_agree {r r' : Row} {w : Word} (h : rowApplies r w = true) (h' : rowApplies r' w = true) :
    r.value &&& r'.mask = r'.value &&& r.mask := by
  unfold rowApplies at h h'
  rw [← eq_of_beq h, ← eq_of_beq h', BitVec.and_assoc, BitVec.and_assoc, BitVec.and_comm r.mask]

/-- The selected row stands in the table at its index and applies. -/
theorem selectRow_eq_some {w : Word} {k : Nat} {r : Row} (h : selectRow w = some (k, r)) :
    table[k]? = some r ∧ rowApplies r w = true ∧
      ∀ j r', j < k → table[j]? = some r' → rowApplies r' w = false := by
  obtain ⟨i, rfl, hi, ha, hb⟩ := matchFrom_eq_some h
  exact ⟨by simpa using hi, ha, fun j r' hj hr' => hb j r' (by omega) hr'⟩

theorem selectRow_eq_none {w : Word} : selectRow w = none ↔ ∀ r ∈ table, rowApplies r w = false :=
  matchFrom_eq_none

theorem matchWord_eq_some {w : Word} {k : Nat} : matchWord w = some k ↔ ∃ r, selectRow w = some (k, r) := by
  simp [matchWord]

theorem matchWord_eq_none {w : Word} : matchWord w = none ↔ selectRow w = none := by
  simp [matchWord]

/-! ### The decoder -/

/-- All that the decoder can answer: what the selected row builds from the fields, or the word by name. -/
theorem decodeWord_eq_ok {w : Word} {i : Instr} :
    decodeWord w = .ok i ↔ ∃ k r, selectRow w = some (k, r) ∧ r.build (extract w) = i := by
  unfold decodeWord
  cases h : selectRow w with
  | none => simp
  | some p =>
    obtain ⟨k, r⟩ := p
    constructor
    · intro h'; exact ⟨k, r, rfl, by simpa using h'⟩
    · rintro ⟨_, _, h', rfl⟩; cases h'; rfl

theorem decodeWord_eq_rejected {w : Word} {e : Reject} :
    decodeWord w = .rejected e ↔ selectRow w = none ∧ e = .unknownInstruction w := by
  unfold decodeWord
  cases h : selectRow w with
  | none => simp [eq_comm]
  | some p => simp

/-- All that the decoder can answer on two bytes or more. -/
theorem decodeBytes_eq_ok {hi lo : Byte} {rest rest' : List Byte} {i : Instr} :
    decodeBytes (hi :: lo :: rest) = .ok (i, rest') ↔ decodeWord (pairBytes hi lo) = .ok i ∧ rest' = rest := by
  simp only [decodeBytes]
  cases decodeWord (pairBytes hi lo) <;> simp [eq_comm]

theorem decoderOut_of_some {w : Word} {k : Nat} {r : Row} (h : selectRow w = some (k, r)) :
    decoderOut w =
      { hit := true, unk := false, pat := BitVec.ofNat 6 k, fields := extract w, line := renderRow r w } := by
  unfold decoderOut; rw [h]

theorem decoderOut_of_none {w : Word} (h : selectRow w = none) :
    decoderOut w =
      { hit := false, unk := true, pat := Config.patMiss, fields := extract w, line := placeholder w } := by
  unfold decoderOut; rw [h]

@[simp] theorem pairBytes_wordBytes (w : Word) : pairBytes (highByte w) (lowByte w) = w := by
  unfold pairBytes highByte lowByte
  apply BitVec.eq_of_getLsbD_eq
  intro i hi
  simp only [BitVec.getLsbD_or, BitVec.getLsbD_shiftLeft, BitVec.getLsbD_setWidth, BitVec.getLsbD_extractLsb']
  grind

end Sys2Proof.Machine
end

