-- ==== Sys2Proof/Laws/State.lean ====
section
/-!
SUPPORT. One lemma per field per update of the state, so that no proof unfolds a record update.
-/
namespace Sys2Proof.Machine

/-! ### `advance` -/

@[simp] theorem advance_bytes (s : State) :
    (advance s).bytes = s.bytes := rfl

@[simp] theorem advance_count (s : State) :
    (advance s).count = s.count := rfl

@[simp] theorem advance_widx (s : State) :
    (advance s).widx = s.widx + 1 := rfl

@[simp] theorem advance_lines (s : State) :
    (advance s).lines = s.lines := rfl

@[simp] theorem advance_unks (s : State) :
    (advance s).unks = s.unks := rfl

@[simp] theorem advance_trunc (s : State) :
    (advance s).trunc = s.trunc := rfl

@[simp] theorem advance_done (s : State) :
    (advance s).done = s.done := rfl

/-! ### `raise_unknown` -/

@[simp] theorem raise_unknown_bytes (s : State) (i : Nat) (w : Word) :
    (raise (.unknownInstruction i w) s).bytes = s.bytes := rfl

@[simp] theorem raise_unknown_count (s : State) (i : Nat) (w : Word) :
    (raise (.unknownInstruction i w) s).count = s.count := rfl

@[simp] theorem raise_unknown_widx (s : State) (i : Nat) (w : Word) :
    (raise (.unknownInstruction i w) s).widx = s.widx := rfl

@[simp] theorem raise_unknown_lines (s : State) (i : Nat) (w : Word) :
    (raise (.unknownInstruction i w) s).lines = s.lines := rfl

@[simp] theorem raise_unknown_unks (s : State) (i : Nat) (w : Word) :
    (raise (.unknownInstruction i w) s).unks = s.unks ++ [i] := rfl

@[simp] theorem raise_unknown_trunc (s : State) (i : Nat) (w : Word) :
    (raise (.unknownInstruction i w) s).trunc = s.trunc := rfl

@[simp] theorem raise_unknown_done (s : State) (i : Nat) (w : Word) :
    (raise (.unknownInstruction i w) s).done = s.done := rfl

/-! ### `raise_truncated` -/

@[simp] theorem raise_truncated_bytes (s : State) :
    (raise .truncatedInput s).bytes = s.bytes := rfl

@[simp] theorem raise_truncated_count (s : State) :
    (raise .truncatedInput s).count = s.count := rfl

@[simp] theorem raise_truncated_widx (s : State) :
    (raise .truncatedInput s).widx = s.widx := rfl

@[simp] theorem raise_truncated_lines (s : State) :
    (raise .truncatedInput s).lines = s.lines := rfl

@[simp] theorem raise_truncated_unks (s : State) :
    (raise .truncatedInput s).unks = s.unks := rfl

@[simp] theorem raise_truncated_trunc (s : State) :
    (raise .truncatedInput s).trunc = true := rfl

@[simp] theorem raise_truncated_done (s : State) :
    (raise .truncatedInput s).done = s.done := rfl

/-! ### `restart` -/

@[simp] theorem restart_bytes (s : State) :
    (restart s).bytes = s.bytes := rfl

@[simp] theorem restart_count (s : State) :
    (restart s).count = s.count := rfl

@[simp] theorem restart_widx (s : State) :
    (restart s).widx = 0 := rfl

@[simp] theorem restart_lines (s : State) :
    (restart s).lines = [] := rfl

@[simp] theorem restart_unks (s : State) :
    (restart s).unks = [] := rfl

@[simp] theorem restart_trunc (s : State) :
    (restart s).trunc = false := rfl

@[simp] theorem restart_done (s : State) :
    (restart s).done = false := rfl

/-! ### `startRun` -/

@[simp] theorem startRun_bytes (bs : List Byte) (s : State) :
    (startRun bs s).bytes = loadBytes 0 bs := rfl

@[simp] theorem startRun_count (bs : List Byte) (s : State) :
    (startRun bs s).count = bs.length := rfl

@[simp] theorem startRun_widx (bs : List Byte) (s : State) :
    (startRun bs s).widx = 0 := rfl

@[simp] theorem startRun_lines (bs : List Byte) (s : State) :
    (startRun bs s).lines = [] := rfl

@[simp] theorem startRun_unks (bs : List Byte) (s : State) :
    (startRun bs s).unks = [] := rfl

@[simp] theorem startRun_trunc (bs : List Byte) (s : State) :
    (startRun bs s).trunc = false := rfl

@[simp] theorem startRun_done (bs : List Byte) (s : State) :
    (startRun bs s).done = false := rfl

/-! ### `placeWord` -/

@[simp] theorem placeWord_bytes (w : Word) (s : State) :
    (placeWord w s).bytes = 
      memWrite (2 * s.widx + 1) (lowByte w) (memWrite (2 * s.widx) (highByte w) s.bytes) := rfl

@[simp] theorem placeWord_count (w : Word) (s : State) :
    (placeWord w s).count = max s.count (2 * s.widx + 2) := rfl

@[simp] theorem placeWord_widx (w : Word) (s : State) :
    (placeWord w s).widx = s.widx := rfl

@[simp] theorem placeWord_lines (w : Word) (s : State) :
    (placeWord w s).lines = s.lines := rfl

@[simp] theorem placeWord_unks (w : Word) (s : State) :
    (placeWord w s).unks = s.unks := rfl

@[simp] theorem placeWord_trunc (w : Word) (s : State) :
    (placeWord w s).trunc = s.trunc := rfl

@[simp] theorem placeWord_done (w : Word) (s : State) :
    (placeWord w s).done = false := rfl

/-! ### `afterEntry` -/

@[simp] theorem afterEntry_bytes (l : Text) (u : Bool) (s : State) :
    (afterEntry l u s).bytes = s.bytes := rfl

@[simp] theorem afterEntry_count (l : Text) (u : Bool) (s : State) :
    (afterEntry l u s).count = s.count := rfl

@[simp] theorem afterEntry_widx (l : Text) (u : Bool) (s : State) :
    (afterEntry l u s).widx = s.widx + 1 := rfl

@[simp] theorem afterEntry_lines (l : Text) (u : Bool) (s : State) :
    (afterEntry l u s).lines = s.lines ++ [⟨l, u⟩] := rfl

@[simp] theorem afterEntry_unks (l : Text) (u : Bool) (s : State) :
    (afterEntry l u s).unks = if u then s.unks ++ [s.widx] else s.unks := rfl

@[simp] theorem afterEntry_trunc (l : Text) (u : Bool) (s : State) :
    (afterEntry l u s).trunc = s.trunc := rfl

@[simp] theorem afterEntry_done (l : Text) (u : Bool) (s : State) :
    (afterEntry l u s).done = s.done := rfl

/-! ### `afterFinal` -/

@[simp] theorem afterFinal_bytes (s : State) :
    (afterFinal s).bytes = s.bytes := rfl

@[simp] theorem afterFinal_count (s : State) :
    (afterFinal s).count = s.count := rfl

@[simp] theorem afterFinal_widx (s : State) :
    (afterFinal s).widx = s.widx := rfl

@[simp] theorem afterFinal_lines (s : State) :
    (afterFinal s).lines = s.lines := rfl

@[simp] theorem afterFinal_unks (s : State) :
    (afterFinal s).unks = s.unks := rfl

@[simp] theorem afterFinal_trunc (s : State) :
    (afterFinal s).trunc = (s.trunc || truncFlag s.count) := rfl

@[simp] theorem afterFinal_done (s : State) :
    (afterFinal s).done = true := rfl

end Sys2Proof.Machine
end

