-- ==== Sys2Proof/Laws/Ops.lean ====
section
/-!
SUPPORT. What each shared operation can do, said once: the byte reads, `Emit`, the two arms of a decoding step, the
final step.
-/
namespace Sys2Proof.Machine

/-! ### Reads -/

theorem readByte_eq_some {s : State} {a : Nat} {b : Byte} :
    readByte s a = some b ↔ a < s.count ∧ memLookup a s.bytes = b := by
  unfold readByte
  by_cases h : a < s.count <;> simp [h]

theorem readByte_eq_none {s : State} {a : Nat} : readByte s a = none ↔ s.count ≤ a := by
  unfold readByte
  by_cases h : a < s.count
  · simp [h]
  · simp [h]; omega

/-- A read depends on the input only. -/
theorem readByte_congr {s t : State} (hb : t.bytes = s.bytes) (hc : t.count = s.count) (a : Nat) :
    readByte t a = readByte s a := by
  unfold readByte; rw [hb, hc]

theorem readWord_eq_some {s : State} {a : Nat} {w : Word} :
    readWord s a = some w ↔
      a + 1 < s.count ∧ pairBytes (memLookup a s.bytes) (memLookup (a + 1) s.bytes) = w := by
  unfold readWord readByte
  by_cases h : a + 1 < s.count
  · have : a < s.count := by omega
    simp [h, this]
  · by_cases h' : a < s.count <;> simp [h, h']

/-- The word a decoding step reads: the pair at `2*widx`, exactly where the guard holds. -/
theorem fetchWord_eq_some {s : State} {w : Word} :
    fetchWord s = some w ↔ 2 * s.widx + 1 < s.count ∧ wordAt s s.widx = w := readWord_eq_some

theorem wordRemains_iff {s : State} : wordRemains s = true ↔ 2 * s.widx + 1 < s.count := by
  simp [wordRemains]

/-! ### Emit and the arms of a step -/

/-- All that `Emit` can do. -/
theorem emit_next {i : Nat} {l : Text} {u : Bool} {s t : State} :
    emit i l u s = .next t ↔ s.lines.length = i ∧ t = { s with lines := s.lines ++ [⟨l, u⟩] } := by
  unfold emit; split <;> simp_all [eq_comm]

theorem emitLine_eq {l : Text} {s : State} (h : s.lines.length = s.widx) :
    emitLine l s = .next (afterEntry l false s) := by
  unfold emitLine emit; rw [if_pos h]; rfl

theorem emitLine_out {l : Text} {s : State} (h : s.lines.length ≠ s.widx) :
    emitLine l s = .fault .emitOutOfOrder := by
  unfold emitLine emit; rw [if_neg h]; rfl

/-- All that a selected row can do. -/
theorem emitLine_next {l : Text} {s t : State} :
    emitLine l s = .next t ↔ s.lines.length = s.widx ∧ t = afterEntry l false s := by
  by_cases h : s.lines.length = s.widx
  · simp [emitLine_eq h, h, eq_comm]
  · simp [emitLine_out h, h]

theorem emitUnknown_eq {w : Word} {s : State} (h : s.lines.length = s.widx) :
    emitUnknown w s = .next (afterEntry (placeholder w) true s) := by
  unfold emitUnknown emit; rw [if_pos h]; rfl

theorem emitUnknown_out {w : Word} {s : State} (h : s.lines.length ≠ s.widx) :
    emitUnknown w s = .fault .emitOutOfOrder := by
  unfold emitUnknown emit; rw [if_neg h]; rfl

/-- All that an unknown word can do. -/
theorem emitUnknown_next {w : Word} {s t : State} :
    emitUnknown w s = .next t ↔ s.lines.length = s.widx ∧ t = afterEntry (placeholder w) true s := by
  by_cases h : s.lines.length = s.widx
  · simp [emitUnknown_eq h, h, eq_comm]
  · simp [emitUnknown_out h, h]

theorem finish_eq (s : State) : finish s = afterFinal s := by
  unfold finish afterFinal
  cases h : truncFlag s.count <;> simp [raise]

/-! ### The stream's words are those of the input, which no step writes -/

@[simp] theorem wordAt_afterEntry (l : Text) (u : Bool) (s : State) (i : Nat) :
    wordAt (afterEntry l u s) i = wordAt s i := rfl

@[simp] theorem wordAt_afterFinal (s : State) (i : Nat) : wordAt (afterFinal s) i = wordAt s i := rfl

@[simp] theorem readByte_afterEntry (l : Text) (u : Bool) (s : State) (a : Nat) :
    readByte (afterEntry l u s) a = readByte s a := rfl

@[simp] theorem readByte_afterFinal (s : State) (a : Nat) : readByte (afterFinal s) a = readByte s a := rfl

/-! ### The conditions of a word sequence -/

/-- Unknown Instruction is raised once for each unknown index, with that index and its word (41_decoder.md R109);
`pre` holds the words before the sequence. -/
theorem unknownsFrom_eq (pre ws : List Word) :
    unknownsFrom pre.length ws =
      (unksFrom pre.length (ws.map entryOf)).map (fun i => .unknownInstruction i ((pre ++ ws).getD i 0#16)) := by
  induction ws generalizing pre with
  | nil => rfl
  | cons w ws ih =>
    have := ih (pre ++ [w])
    simp only [List.length_append, List.length_singleton, List.append_assoc, List.singleton_append] at this
    simp only [unknownsFrom, List.map_cons, unksFrom, entryOf]
    split <;> simp_all

end Sys2Proof.Machine
end

