-- ==== Sys2Proof/Laws/Memory.lean ====
section
/-!
SUPPORT. The laws of the byte space: a read after a write gives the byte written, a write leaves every other offset
alone, and every memory operation keeps the canonical form.
-/
namespace Sys2Proof.Machine

@[simp] theorem memLookup_nil (a : Nat) : memLookup a [] = unlistedByte := rfl

theorem memLookup_cons (a : Nat) (c : Host.Cell) (m : Memory) :
    memLookup a (c :: m) = if c.1 = a then c.2 else memLookup a m := rfl

/-- An offset below every listed one is unlisted. -/
theorem memLookup_of_lt {a : Nat} {m : Memory} (h : ∀ c ∈ m, a < c.1) : memLookup a m = unlistedByte := by
  induction m with
  | nil => rfl
  | cons c m ih =>
    have hc : a < c.1 := h c (by simp)
    rw [memLookup_cons, if_neg (by omega)]
    exact ih fun d hd => h d (by simp [hd])

theorem memLookup_consCell {c : Host.Cell} {m : Memory} (h : ∀ d ∈ m, c.1 < d.1) (a : Nat) :
    memLookup a (consCell c m) = if c.1 = a then c.2 else memLookup a m := by
  unfold consCell
  split
  · next h0 =>
    split
    · next ha => subst ha; rw [h0, memLookup_of_lt h]
    · rfl
  · rfl

theorem mem_consCell {c d : Host.Cell} {m : Memory} (h : d ∈ consCell c m) : d = c ∨ d ∈ m := by
  unfold consCell at h
  split at h <;> simp_all

theorem consCell_wf {c : Host.Cell} {m : Memory} (hm : Memory.wf m) (h : ∀ d ∈ m, c.1 < d.1) :
    Memory.wf (consCell c m) := by
  unfold consCell
  split
  · exact hm
  · next h0 =>
    refine ⟨List.pairwise_cons.2 ⟨h, hm.1⟩, fun d hd => ?_⟩
    rcases List.mem_cons.1 hd with rfl | hd
    · exact h0
    · exact hm.2 d hd

theorem wf_tail {c : Host.Cell} {m : Memory} (h : Memory.wf (c :: m)) :
    Memory.wf m ∧ (∀ d ∈ m, c.1 < d.1) ∧ c.2 ≠ unlistedByte :=
  ⟨⟨(List.pairwise_cons.1 h.1).2, fun d hd => h.2 d (by simp [hd])⟩, (List.pairwise_cons.1 h.1).1, h.2 c (by simp)⟩

theorem mem_memWrite {a : Nat} {b : Byte} {d : Host.Cell} {m : Memory} (h : d ∈ memWrite a b m) :
    d = (a, b) ∨ d ∈ m := by
  induction m with
  | nil => exact (mem_consCell h)
  | cons c m ih =>
    unfold memWrite at h
    split at h
    · exact mem_consCell h
    · split at h
      · rcases mem_consCell h with h | h <;> simp [h]
      · rcases List.mem_cons.1 h with h | h
        · simp [h]
        · rcases ih h with h | h <;> simp [h]

/-- A write keeps the canonical form. -/
theorem memWrite_wf {a : Nat} {b : Byte} {m : Memory} (hm : Memory.wf m) : Memory.wf (memWrite a b m) := by
  induction m with
  | nil => exact consCell_wf hm (by simp)
  | cons c m ih =>
    obtain ⟨ht, hlt, h0⟩ := wf_tail hm
    unfold memWrite
    split
    · next h =>
      refine consCell_wf hm fun d hd => ?_
      rcases List.mem_cons.1 hd with rfl | hd
      · exact h
      · exact Nat.lt_trans h (hlt d hd)
    · split
      · next h => subst h; exact consCell_wf ht hlt
      · next h1 h2 =>
        refine ⟨List.pairwise_cons.2 ⟨fun d hd => ?_, (ih ht).1⟩, fun d hd => ?_⟩
        · rcases mem_memWrite hd with rfl | hd
          · show c.1 < a; omega
          · exact hlt d hd
        · rcases List.mem_cons.1 hd with rfl | hd
          · exact h0
          · exact (ih ht).2 d hd

/-- A read after a write: the byte written at that offset, every other offset as before. -/
theorem memLookup_memWrite {b : Byte} {m : Memory} (hm : m.Pairwise (fun c d => c.1 < d.1)) (a x : Nat) :
    memLookup x (memWrite a b m) = if a = x then b else memLookup x m := by
  induction m with
  | nil => exact memLookup_consCell (by simp) x
  | cons c m ih =>
    obtain ⟨hlt, ht⟩ := List.pairwise_cons.1 hm
    unfold memWrite
    split
    · next h =>
      refine memLookup_consCell (fun d hd => ?_) x
      rcases List.mem_cons.1 hd with rfl | hd
      · exact h
      · exact Nat.lt_trans h (hlt d hd)
    · split
      · next h =>
        subst h
        rw [memLookup_consCell (c := (c.1, b)) hlt, memLookup_cons]
        by_cases hc : c.1 = x <;> simp [hc]
      · next h1 h2 =>
        rw [memLookup_cons, memLookup_cons, ih ht]
        by_cases hc : c.1 = x
        · simp only [hc, if_true]; rw [if_neg (by omega)]
        · simp only [hc, if_false]

theorem loadBytes_ge {a : Nat} {bs : List Byte} : ∀ c ∈ loadBytes a bs, a ≤ c.1 := by
  induction bs generalizing a with
  | nil => simp [loadBytes]
  | cons b bs ih =>
    intro c hc
    rcases mem_consCell hc with rfl | hc
    · exact Nat.le_refl _
    · exact Nat.le_of_succ_le (ih c hc)

theorem loadBytes_lt {a : Nat} {bs : List Byte} : ∀ c ∈ loadBytes a bs, c.1 < a + bs.length := by
  induction bs generalizing a with
  | nil => simp [loadBytes]
  | cons b bs ih =>
    intro c hc
    rcases mem_consCell hc with rfl | hc
    · simp
    · have := ih c hc
      simp only [List.length_cons]; omega

/-- Laying bytes down gives the canonical form. -/
theorem loadBytes_wf (a : Nat) (bs : List Byte) : Memory.wf (loadBytes a bs) := by
  induction bs generalizing a with
  | nil => exact ⟨List.Pairwise.nil, by simp [loadBytes]⟩
  | cons b bs ih => exact consCell_wf (ih (a + 1)) fun d hd => Nat.lt_of_succ_le (loadBytes_ge d hd)

/-- A read of bytes laid down. -/
theorem memLookup_loadBytes (a : Nat) (bs : List Byte) (x : Nat) :
    memLookup (a + x) (loadBytes a bs) = bs.getD x unlistedByte := by
  induction bs generalizing a x with
  | nil => simp [loadBytes]
  | cons b bs ih =>
    unfold loadBytes
    rw [memLookup_consCell (fun d hd => Nat.lt_of_succ_le (loadBytes_ge d hd))]
    cases x with
    | zero => simp
    | succ x =>
      have := ih (a + 1) x
      rw [if_neg (by simp), show a + (x + 1) = a + 1 + x by omega, this]
      simp

theorem reset_bytes_wf : Memory.wf State.reset.bytes := by decide

/-- Starting a run keeps the canonical form. -/
theorem startRun_bytes_wf (bs : List Byte) (s : State) : Memory.wf (startRun bs s).bytes := loadBytes_wf 0 bs

/-- Placing a word keeps the canonical form. -/
theorem placeWord_bytes_wf {s : State} (w : Word) (h : Memory.wf s.bytes) : Memory.wf (placeWord w s).bytes :=
  memWrite_wf (memWrite_wf h)

/-- What the placed byte space holds: the word's two bytes, and what it held before at every other offset. -/
theorem memLookup_placeWord {s : State} (w : Word) (h : Memory.wf s.bytes) (a : Nat) :
    memLookup a (placeWord w s).bytes =
      if 2 * s.widx + 1 = a then lowByte w else if 2 * s.widx = a then highByte w else memLookup a s.bytes := by
  rw [placeWord_bytes, memLookup_memWrite (memWrite_wf h).1, memLookup_memWrite h.1]

end Sys2Proof.Machine
end

