-- ==== Sys2Proof/Laws/PerInstr.lean ====
section
/-!
SUPPORT. The family `RowSelects`, one lemma per constructor: the instruction's own row stands in the table at its index,
applies to the instruction's word (30_encoding.md R70), and its match value lies inside its mask (10_state.md R29).
-/
namespace Sys2Proof.Laws.RowSelects

open Sys2Proof.Machine

/-- The row of an instruction applies to its word. -/
def Statement (i : Instr) : Prop :=
  ∃ r, table[rowIndex i]? = some r ∧ rowApplies r (encode i) = true ∧ r.value &&& ~~~r.mask = 0#16

/-- A word whose bits under the row's mask are the match value, shown on the word split at the operand fields. -/
theorem of_eq {i : Instr} (r : Row) (ht : table[rowIndex i]? = some r) (ha : encode i &&& r.mask = r.value)
    (hv : r.value &&& ~~~r.mask = 0#16) : Statement i :=
  ⟨r, ht, beq_iff_eq.2 ha, hv⟩

theorem cls : Statement .cls :=
  of_eq _ rfl (by decide) (by decide)

theorem ret : Statement .ret :=
  of_eq _ rfl (by decide) (by decide)

theorem sysAddr (nnn : Addr) : Statement (.sysAddr nnn) :=
  of_eq _ rfl (and_opcode _ nnn) (by decide)

theorem jpAddr (nnn : Addr) : Statement (.jpAddr nnn) :=
  of_eq _ rfl (and_opcode _ nnn) (by decide)

theorem callAddr (nnn : Addr) : Statement (.callAddr nnn) :=
  of_eq _ rfl (and_opcode _ nnn) (by decide)

theorem seVxByte (x : Nibble) (nn : Byte) : Statement (.seVxByte x nn) :=
  of_eq _ rfl (and_opcode_byte _ x nn) (by decide)

theorem sneVxByte (x : Nibble) (nn : Byte) : Statement (.sneVxByte x nn) :=
  of_eq _ rfl (and_opcode_byte _ x nn) (by decide)

theorem seVxVy (x : Nibble) (y : Nibble) : Statement (.seVxVy x y) :=
  of_eq _ rfl (and_opcode_sub _ x y _) (by decide)

theorem ldVxByte (x : Nibble) (nn : Byte) : Statement (.ldVxByte x nn) :=
  of_eq _ rfl (and_opcode_byte _ x nn) (by decide)

theorem addVxByte (x : Nibble) (nn : Byte) : Statement (.addVxByte x nn) :=
  of_eq _ rfl (and_opcode_byte _ x nn) (by decide)

theorem ldVxVy (x : Nibble) (y : Nibble) : Statement (.ldVxVy x y) :=
  of_eq _ rfl (and_opcode_sub _ x y _) (by decide)

theorem orVxVy (x : Nibble) (y : Nibble) : Statement (.orVxVy x y) :=
  of_eq _ rfl (and_opcode_sub _ x y _) (by decide)

theorem andVxVy (x : Nibble) (y : Nibble) : Statement (.andVxVy x y) :=
  of_eq _ rfl (and_opcode_sub _ x y _) (by decide)

theorem xorVxVy (x : Nibble) (y : Nibble) : Statement (.xorVxVy x y) :=
  of_eq _ rfl (and_opcode_sub _ x y _) (by decide)

theorem addVxVy (x : Nibble) (y : Nibble) : Statement (.addVxVy x y) :=
  of_eq _ rfl (and_opcode_sub _ x y _) (by decide)

theorem subVxVy (x : Nibble) (y : Nibble) : Statement (.subVxVy x y) :=
  of_eq _ rfl (and_opcode_sub _ x y _) (by decide)

theorem shrVxVy (x : Nibble) (y : Nibble) : Statement (.shrVxVy x y) :=
  of_eq _ rfl (and_opcode_sub _ x y _) (by decide)

theorem subnVxVy (x : Nibble) (y : Nibble) : Statement (.subnVxVy x y) :=
  of_eq _ rfl (and_opcode_sub _ x y _) (by decide)

theorem shlVxVy (x : Nibble) (y : Nibble) : Statement (.shlVxVy x y) :=
  of_eq _ rfl (and_opcode_sub _ x y _) (by decide)

theorem sneVxVy (x : Nibble) (y : Nibble) : Statement (.sneVxVy x y) :=
  of_eq _ rfl (and_opcode_sub _ x y _) (by decide)

theorem ldIAddr (nnn : Addr) : Statement (.ldIAddr nnn) :=
  of_eq _ rfl (and_opcode _ nnn) (by decide)

theorem jpV0Addr (nnn : Addr) : Statement (.jpV0Addr nnn) :=
  of_eq _ rfl (and_opcode _ nnn) (by decide)

theorem rndVxByte (x : Nibble) (nn : Byte) : Statement (.rndVxByte x nn) :=
  of_eq _ rfl (and_opcode_byte _ x nn) (by decide)

theorem drwVxVyNibble (x : Nibble) (y : Nibble) (n : Nibble) : Statement (.drwVxVyNibble x y n) :=
  of_eq _ rfl (and_opcode_nibbles _ x y n) (by decide)

theorem skpVx (x : Nibble) : Statement (.skpVx x) :=
  of_eq _ rfl (and_opcode_low _ x _) (by decide)

theorem sknpVx (x : Nibble) : Statement (.sknpVx x) :=
  of_eq _ rfl (and_opcode_low _ x _) (by decide)

theorem ldVxDt (x : Nibble) : Statement (.ldVxDt x) :=
  of_eq _ rfl (and_opcode_low _ x _) (by decide)

theorem ldVxK (x : Nibble) : Statement (.ldVxK x) :=
  of_eq _ rfl (and_opcode_low _ x _) (by decide)

theorem ldDtVx (x : Nibble) : Statement (.ldDtVx x) :=
  of_eq _ rfl (and_opcode_low _ x _) (by decide)

theorem ldStVx (x : Nibble) : Statement (.ldStVx x) :=
  of_eq _ rfl (and_opcode_low _ x _) (by decide)

theorem addIVx (x : Nibble) : Statement (.addIVx x) :=
  of_eq _ rfl (and_opcode_low _ x _) (by decide)

theorem ldFVx (x : Nibble) : Statement (.ldFVx x) :=
  of_eq _ rfl (and_opcode_low _ x _) (by decide)

theorem ldBVx (x : Nibble) : Statement (.ldBVx x) :=
  of_eq _ rfl (and_opcode_low _ x _) (by decide)

theorem ldIndVx (x : Nibble) : Statement (.ldIndVx x) :=
  of_eq _ rfl (and_opcode_low _ x _) (by decide)

theorem ldVxInd (x : Nibble) : Statement (.ldVxInd x) :=
  of_eq _ rfl (and_opcode_low _ x _) (by decide)

end Sys2Proof.Laws.RowSelects
end

