-- ==== Sys2Proof/Laws/Step.lean ====
section
/-!
SUPPORT. What an instruction and a step can do, said once.
-/
namespace Sys2Proof.Machine

/-- Every instruction prints one line of its own and does nothing else. -/
theorem exec_emits (i : Instr) : ∃ l, ∀ s, exec i s = emitLine l s := by
  cases i <;> exact ⟨_, fun _ => rfl⟩

/-- The instruction a row builds from the fields prints the row's template on them: each meaning, written from the
row's 'Result', against the table's text for it. -/
theorem exec_build {r : Row} (h : r ∈ table) (f : Fields) (s : State) :
    exec (r.build f) s = emitLine (render r.template f) s := by
  simp only [table, tableRows0To9, tableRows10To19, tableRows20To34, List.cons_append, List.nil_append,
    List.mem_cons, List.not_mem_nil, or_false] at h
  rcases h with rfl | rfl | rfl | rfl | rfl | rfl | rfl | rfl | rfl | rfl | rfl | rfl | rfl | rfl | rfl | rfl | rfl | rfl |
    rfl | rfl | rfl | rfl | rfl | rfl | rfl | rfl | rfl | rfl | rfl | rfl | rfl | rfl | rfl | rfl | rfl <;> rfl

theorem step_of_done {s : State} (h : s.done = true) : step s = .fault .runOver := by
  unfold step; rw [if_pos h]

theorem step_of_word {s : State} {w : Word} (hd : s.done = false) (hw : fetchWord s = some w) :
    step s = match decodeWord w with
      | .ok i => exec i s
      | .rejected _ => emitUnknown w s := by
  have hr : wordRemains s = true := wordRemains_iff.2 (fetchWord_eq_some.1 hw).1
  unfold step
  simp only [hd, hr, hw, Bool.false_eq_true, if_false, if_true] <;> (cases decodeWord w <;> rfl)

theorem step_of_end {s : State} (hd : s.done = false) (hw : s.count ≤ 2 * s.widx + 1) :
    step s = .next (afterFinal s) := by
  have hr : wordRemains s = false := by
    rw [← Bool.not_eq_true, wordRemains_iff]; omega
  unfold step; simp [hd, hr, finish_eq]

/-- All that a step can do: print the entry of the word at the cursor, unknown exactly where no row applies, or end the
run. -/
theorem step_next {s t : State} (h : step s = .next t) :
    s.done = false ∧
    ((∃ w l, fetchWord s = some w ∧ s.lines.length = s.widx ∧ selectRow w ≠ none ∧ t = afterEntry l false s) ∨
      (∃ w, fetchWord s = some w ∧ s.lines.length = s.widx ∧ selectRow w = none ∧
        t = afterEntry (placeholder w) true s) ∨
      (s.count ≤ 2 * s.widx + 1 ∧ t = afterFinal s)) := by
  cases hd : s.done with
  | true => rw [step_of_done hd] at h; cases h
  | false =>
    refine ⟨rfl, ?_⟩
    by_cases hg : 2 * s.widx + 1 < s.count
    · have hw : fetchWord s = some (wordAt s s.widx) := fetchWord_eq_some.2 ⟨hg, rfl⟩
      rw [step_of_word hd hw] at h
      cases hk : decodeWord (wordAt s s.widx) with
      | ok i =>
        rw [hk] at h
        obtain ⟨l, hl⟩ := exec_emits i
        obtain ⟨hn, rfl⟩ := emitLine_next.1 ((hl s).symm.trans h)
        obtain ⟨k, r, hr, -⟩ := decodeWord_eq_ok.1 hk
        exact .inl ⟨_, l, hw, hn, by simp [hr], rfl⟩
      | rejected e =>
        rw [hk] at h
        obtain ⟨hn, rfl⟩ := emitUnknown_next.1 h
        exact .inr (.inl ⟨_, hw, hn, (decodeWord_eq_rejected.1 hk).1, rfl⟩)
    · rw [step_of_end hd (by omega)] at h
      cases h
      exact .inr (.inr ⟨by omega, rfl⟩)

end Sys2Proof.Machine
end

