-- ==== Sys2Proof/Tests/Slice0.lean ====
section
/-!
SUPPORT. Tests: expected results are the spec's own (95_test_vectors.md, sections 1 and 2, and the encodings of R130 to
R164 written bit by bit). The last part holds, for each statement with hypotheses, a state and operands that meet them.
-/
namespace Sys2Proof.Tests

open Sys2Proof Sys2Proof.Machine

/-! ### Well-formedness: `SYS 0x0E0` and `SYS 0x0EE` have no word (R132) -/

theorem test_sys_0E0_ill_formed : wellFormed (.sysAddr 0x0E0#12) = false := by decide

theorem test_sys_0EE_ill_formed : wellFormed (.sysAddr 0x0EE#12) = false := by decide

theorem test_sys_0E1_well_formed : wellFormed (.sysAddr 0x0E1#12) = true := by decide

/-! ### Decoding: for every row the example word of 95_test_vectors.md 2.3, bit by bit, and back -/

theorem test_decode_cls : decodeWord 0b0000000011100000#16 = .ok .cls ∧ encode .cls = 0x00E0#16 := by decide

theorem test_decode_ret : decodeWord 0b0000000011101110#16 = .ok .ret ∧ encode .ret = 0x00EE#16 := by decide

theorem test_decode_sysAddr : decodeWord 0b0000000100100011#16 = .ok (.sysAddr 0x123#12) ∧ encode (.sysAddr 0x123#12) = 0x0123#16 := by decide

theorem test_decode_jpAddr : decodeWord 0b0001001000110100#16 = .ok (.jpAddr 0x234#12) ∧ encode (.jpAddr 0x234#12) = 0x1234#16 := by decide

theorem test_decode_callAddr : decodeWord 0b0010101010111100#16 = .ok (.callAddr 0xABC#12) ∧ encode (.callAddr 0xABC#12) = 0x2ABC#16 := by decide

theorem test_decode_seVxByte : decodeWord 0b0011101000001111#16 = .ok (.seVxByte 0xA#4 0x0F#8) ∧ encode (.seVxByte 0xA#4 0x0F#8) = 0x3A0F#16 := by decide

theorem test_decode_sneVxByte : decodeWord 0b0100101100010000#16 = .ok (.sneVxByte 0xB#4 0x10#8) ∧ encode (.sneVxByte 0xB#4 0x10#8) = 0x4B10#16 := by decide

theorem test_decode_seVxVy : decodeWord 0b0101101010110000#16 = .ok (.seVxVy 0xA#4 0xB#4) ∧ encode (.seVxVy 0xA#4 0xB#4) = 0x5AB0#16 := by decide

theorem test_decode_ldVxByte : decodeWord 0b0110000000001010#16 = .ok (.ldVxByte 0x0#4 0x0A#8) ∧ encode (.ldVxByte 0x0#4 0x0A#8) = 0x600A#16 := by decide

theorem test_decode_addVxByte : decodeWord 0b0111110000000001#16 = .ok (.addVxByte 0xC#4 0x01#8) ∧ encode (.addVxByte 0xC#4 0x01#8) = 0x7C01#16 := by decide

theorem test_decode_ldVxVy : decodeWord 0b1000101010110000#16 = .ok (.ldVxVy 0xA#4 0xB#4) ∧ encode (.ldVxVy 0xA#4 0xB#4) = 0x8AB0#16 := by decide

theorem test_decode_orVxVy : decodeWord 0b1000000100100001#16 = .ok (.orVxVy 0x1#4 0x2#4) ∧ encode (.orVxVy 0x1#4 0x2#4) = 0x8121#16 := by decide

theorem test_decode_andVxVy : decodeWord 0b1000001000110010#16 = .ok (.andVxVy 0x2#4 0x3#4) ∧ encode (.andVxVy 0x2#4 0x3#4) = 0x8232#16 := by decide

theorem test_decode_xorVxVy : decodeWord 0b1000001101000011#16 = .ok (.xorVxVy 0x3#4 0x4#4) ∧ encode (.xorVxVy 0x3#4 0x4#4) = 0x8343#16 := by decide

theorem test_decode_addVxVy : decodeWord 0b1000010001010100#16 = .ok (.addVxVy 0x4#4 0x5#4) ∧ encode (.addVxVy 0x4#4 0x5#4) = 0x8454#16 := by decide

theorem test_decode_subVxVy : decodeWord 0b1000010101100101#16 = .ok (.subVxVy 0x5#4 0x6#4) ∧ encode (.subVxVy 0x5#4 0x6#4) = 0x8565#16 := by decide

theorem test_decode_shrVxVy : decodeWord 0b1000011001110110#16 = .ok (.shrVxVy 0x6#4 0x7#4) ∧ encode (.shrVxVy 0x6#4 0x7#4) = 0x8676#16 := by decide

theorem test_decode_subnVxVy : decodeWord 0b1000011110000111#16 = .ok (.subnVxVy 0x7#4 0x8#4) ∧ encode (.subnVxVy 0x7#4 0x8#4) = 0x8787#16 := by decide

theorem test_decode_shlVxVy : decodeWord 0b1000100110001110#16 = .ok (.shlVxVy 0x9#4 0x8#4) ∧ encode (.shlVxVy 0x9#4 0x8#4) = 0x898E#16 := by decide

theorem test_decode_sneVxVy : decodeWord 0b1001101010110000#16 = .ok (.sneVxVy 0xA#4 0xB#4) ∧ encode (.sneVxVy 0xA#4 0xB#4) = 0x9AB0#16 := by decide

theorem test_decode_ldIAddr : decodeWord 0b1010000100100011#16 = .ok (.ldIAddr 0x123#12) ∧ encode (.ldIAddr 0x123#12) = 0xA123#16 := by decide

theorem test_decode_jpV0Addr : decodeWord 0b1011000000001111#16 = .ok (.jpV0Addr 0x00F#12) ∧ encode (.jpV0Addr 0x00F#12) = 0xB00F#16 := by decide

theorem test_decode_rndVxByte : decodeWord 0b1100011111111111#16 = .ok (.rndVxByte 0x7#4 0xFF#8) ∧ encode (.rndVxByte 0x7#4 0xFF#8) = 0xC7FF#16 := by decide

theorem test_decode_drwVxVyNibble : decodeWord 0b1101000000010101#16 = .ok (.drwVxVyNibble 0x0#4 0x1#4 0x5#4) ∧ encode (.drwVxVyNibble 0x0#4 0x1#4 0x5#4) = 0xD015#16 := by decide

theorem test_decode_skpVx : decodeWord 0b1110000110011110#16 = .ok (.skpVx 0x1#4) ∧ encode (.skpVx 0x1#4) = 0xE19E#16 := by decide

theorem test_decode_sknpVx : decodeWord 0b1110010110100001#16 = .ok (.sknpVx 0x5#4) ∧ encode (.sknpVx 0x5#4) = 0xE5A1#16 := by decide

theorem test_decode_ldVxDt : decodeWord 0b1111001100000111#16 = .ok (.ldVxDt 0x3#4) ∧ encode (.ldVxDt 0x3#4) = 0xF307#16 := by decide

theorem test_decode_ldVxK : decodeWord 0b1111000100001010#16 = .ok (.ldVxK 0x1#4) ∧ encode (.ldVxK 0x1#4) = 0xF10A#16 := by decide

theorem test_decode_ldDtVx : decodeWord 0b1111001000010101#16 = .ok (.ldDtVx 0x2#4) ∧ encode (.ldDtVx 0x2#4) = 0xF215#16 := by decide

theorem test_decode_ldStVx : decodeWord 0b1111001100011000#16 = .ok (.ldStVx 0x3#4) ∧ encode (.ldStVx 0x3#4) = 0xF318#16 := by decide

theorem test_decode_addIVx : decodeWord 0b1111010000011110#16 = .ok (.addIVx 0x4#4) ∧ encode (.addIVx 0x4#4) = 0xF41E#16 := by decide

theorem test_decode_ldFVx : decodeWord 0b1111010100101001#16 = .ok (.ldFVx 0x5#4) ∧ encode (.ldFVx 0x5#4) = 0xF529#16 := by decide

theorem test_decode_ldBVx : decodeWord 0b1111011000110011#16 = .ok (.ldBVx 0x6#4) ∧ encode (.ldBVx 0x6#4) = 0xF633#16 := by decide

theorem test_decode_ldIndVx : decodeWord 0b1111011101010101#16 = .ok (.ldIndVx 0x7#4) ∧ encode (.ldIndVx 0x7#4) = 0xF755#16 := by decide

theorem test_decode_ldVxInd : decodeWord 0b1111100001100101#16 = .ok (.ldVxInd 0x8#4) ∧ encode (.ldVxInd 0x8#4) = 0xF865#16 := by decide

/-! ### One step on a word of each row: the lines of 95_test_vectors.md 2.3 -/

/-- The state after reset with a word placed for the first step. -/
def placed (w : Word) : State := State.reset.withFetchWord 16 w.toNat

/-- The entries, `UNKS` and the cursor after one step. -/
def stepped (s : State) : Option (List Entry × List Nat × Nat) :=
  match step s with
  | .next t => some (t.lines, t.unks, t.widx)
  | .fault _ => none
  | .refused _ => none

/-- What a step on a known word leaves: one entry with `UNK = 0`. -/
def printed (t : String) : Option (List Entry × List Nat × Nat) := some ([⟨t.toList, false⟩], [], 1)

/-- What a step on an unknown word leaves: the placeholder with `UNK = 1`, the index recorded. -/
def dumped (t : String) : Option (List Entry × List Nat × Nat) := some ([⟨t.toList, true⟩], [0], 1)

theorem test_step_cls : stepped (placed 0x00E0#16) = printed "CLS" := by decide

theorem test_step_ret : stepped (placed 0x00EE#16) = printed "RET" := by decide

theorem test_step_sysAddr : stepped (placed 0x0FFF#16) = printed "SYS 0xFFF" ∧ stepped (placed 0x0123#16) = printed "SYS 0x123" := by decide

theorem test_step_jpAddr : stepped (placed 0x1FFF#16) = printed "JP 0xFFF" ∧ stepped (placed 0x1234#16) = printed "JP 0x234" := by decide

theorem test_step_callAddr : stepped (placed 0x2FFF#16) = printed "CALL 0xFFF" ∧ stepped (placed 0x2ABC#16) = printed "CALL 0xABC" := by decide

theorem test_step_seVxByte : stepped (placed 0x3FFF#16) = printed "SE VF, 0xFF" ∧ stepped (placed 0x3A0F#16) = printed "SE VA, 0x0F" := by decide

theorem test_step_sneVxByte : stepped (placed 0x4FFF#16) = printed "SNE VF, 0xFF" ∧ stepped (placed 0x4B10#16) = printed "SNE VB, 0x10" := by decide

theorem test_step_seVxVy : stepped (placed 0x5FF0#16) = printed "SE VF, VF" ∧ stepped (placed 0x5AB0#16) = printed "SE VA, VB" := by decide

theorem test_step_ldVxByte : stepped (placed 0x6FFF#16) = printed "LD VF, 0xFF" ∧ stepped (placed 0x600A#16) = printed "LD V0, 0x0A" := by decide

theorem test_step_addVxByte : stepped (placed 0x7FFF#16) = printed "ADD VF, 0xFF" ∧ stepped (placed 0x7C01#16) = printed "ADD VC, 0x01" := by decide

theorem test_step_ldVxVy : stepped (placed 0x8FF0#16) = printed "LD VF, VF" ∧ stepped (placed 0x8AB0#16) = printed "LD VA, VB" := by decide

theorem test_step_orVxVy : stepped (placed 0x8FF1#16) = printed "OR VF, VF" ∧ stepped (placed 0x8121#16) = printed "OR V1, V2" := by decide

theorem test_step_andVxVy : stepped (placed 0x8FF2#16) = printed "AND VF, VF" ∧ stepped (placed 0x8232#16) = printed "AND V2, V3" := by decide

theorem test_step_xorVxVy : stepped (placed 0x8FF3#16) = printed "XOR VF, VF" ∧ stepped (placed 0x8343#16) = printed "XOR V3, V4" := by decide

theorem test_step_addVxVy : stepped (placed 0x8FF4#16) = printed "ADD VF, VF" ∧ stepped (placed 0x8454#16) = printed "ADD V4, V5" := by decide

theorem test_step_subVxVy : stepped (placed 0x8FF5#16) = printed "SUB VF, VF" ∧ stepped (placed 0x8565#16) = printed "SUB V5, V6" := by decide

theorem test_step_shrVxVy : stepped (placed 0x8FF6#16) = printed "SHR VF, VF" ∧ stepped (placed 0x8676#16) = printed "SHR V6, V7" := by decide

theorem test_step_subnVxVy : stepped (placed 0x8FF7#16) = printed "SUBN VF, VF" ∧ stepped (placed 0x8787#16) = printed "SUBN V7, V8" := by decide

theorem test_step_shlVxVy : stepped (placed 0x8FFE#16) = printed "SHL VF, VF" ∧ stepped (placed 0x898E#16) = printed "SHL V9, V8" := by decide

theorem test_step_sneVxVy : stepped (placed 0x9FF0#16) = printed "SNE VF, VF" ∧ stepped (placed 0x9AB0#16) = printed "SNE VA, VB" := by decide

theorem test_step_ldIAddr : stepped (placed 0xAFFF#16) = printed "LD I, 0xFFF" ∧ stepped (placed 0xA123#16) = printed "LD I, 0x123" := by decide

theorem test_step_jpV0Addr : stepped (placed 0xBFFF#16) = printed "JP V0, 0xFFF" ∧ stepped (placed 0xB00F#16) = printed "JP V0, 0x00F" := by decide

theorem test_step_rndVxByte : stepped (placed 0xCFFF#16) = printed "RND VF, 0xFF" ∧ stepped (placed 0xC7FF#16) = printed "RND V7, 0xFF" := by decide

theorem test_step_drwVxVyNibble : stepped (placed 0xDFFF#16) = printed "DRW VF, VF, 0xF" ∧ stepped (placed 0xD015#16) = printed "DRW V0, V1, 0x5" := by decide

theorem test_step_skpVx : stepped (placed 0xEF9E#16) = printed "SKP VF" ∧ stepped (placed 0xE19E#16) = printed "SKP V1" := by decide

theorem test_step_sknpVx : stepped (placed 0xEFA1#16) = printed "SKNP VF" ∧ stepped (placed 0xE5A1#16) = printed "SKNP V5" := by decide

theorem test_step_ldVxDt : stepped (placed 0xFF07#16) = printed "LD VF, DT" ∧ stepped (placed 0xF307#16) = printed "LD V3, DT" := by decide

theorem test_step_ldVxK : stepped (placed 0xFF0A#16) = printed "LD VF, K" ∧ stepped (placed 0xF10A#16) = printed "LD V1, K" := by decide

theorem test_step_ldDtVx : stepped (placed 0xFF15#16) = printed "LD DT, VF" ∧ stepped (placed 0xF215#16) = printed "LD DT, V2" := by decide

theorem test_step_ldStVx : stepped (placed 0xFF18#16) = printed "LD ST, VF" ∧ stepped (placed 0xF318#16) = printed "LD ST, V3" := by decide

theorem test_step_addIVx : stepped (placed 0xFF1E#16) = printed "ADD I, VF" ∧ stepped (placed 0xF41E#16) = printed "ADD I, V4" := by decide

theorem test_step_ldFVx : stepped (placed 0xFF29#16) = printed "LD F, VF" ∧ stepped (placed 0xF529#16) = printed "LD F, V5" := by decide

theorem test_step_ldBVx : stepped (placed 0xFF33#16) = printed "LD B, VF" ∧ stepped (placed 0xF633#16) = printed "LD B, V6" := by decide

theorem test_step_ldIndVx : stepped (placed 0xFF55#16) = printed "LD [I], VF" ∧ stepped (placed 0xF755#16) = printed "LD [I], V7" := by decide

theorem test_step_ldVxInd : stepped (placed 0xFF65#16) = printed "LD VF, [I]" ∧ stepped (placed 0xF865#16) = printed "LD V8, [I]" := by decide

/-! ### The unknown space (95_test_vectors.md 2.4) -/

theorem test_step_unknown_5ABC : stepped (placed 0x5ABC#16) = dumped "0x5ABC" := by decide

theorem test_step_unknown_FFFF : stepped (placed 0xFFFF#16) = dumped "0xFFFF" := by decide

theorem test_unknown_words_5_9 :
    ([0x5001#16, 0x500F#16, 0x5FFF#16, 0x9001#16, 0x9AB1#16, 0x9FFF#16].all fun w => (matchWord w).isNone) = true := by decide

theorem test_unknown_words_8 :
    ([0x8008#16, 0x8AB8#16, 0x8ABC#16, 0x8ABD#16, 0x8ABF#16, 0x8FFF#16].all fun w => (matchWord w).isNone) = true := by decide

theorem test_unknown_words_E :
    ([0xE000#16, 0xE09D#16, 0xE09F#16, 0xE0A0#16, 0xE0A2#16, 0xEFFF#16].all fun w => (matchWord w).isNone) = true := by decide

theorem test_unknown_words_F :
    ([0xF000#16, 0xF006#16, 0xF00B#16, 0xF030#16, 0xF066#16, 0xF085#16].all fun w => (matchWord w).isNone) = true := by decide

theorem test_pat_on_miss : (decoderOut 0x5ABC#16).pat = 63#6 ∧ (decoderOut 0x5ABC#16).hit = false := by decide

/-! ### Priority, fields, digits, bytes (95_test_vectors.md 2.2, 2.6, 2.7) -/

theorem test_match_priority :
    matchWord 0x00E0#16 = some 0 ∧ matchWord 0x00EE#16 = some 1 ∧ matchWord 0x00E1#16 = some 2 ∧
      matchWord 0x10E0#16 = some 3 := by decide

theorem test_extract_ABCD : extract 0xABCD#16 = ⟨0xB#4, 0xC#4, 0xD#4, 0xCD#8, 0xBCD#12⟩ := by decide

theorem test_hex :
    hex2 0xA0#8 = "A0".toList ∧ hex3 0x050#12 = "050".toList ∧ hex4 0x0001#16 = "0001".toList := by decide

theorem test_bytes_of_draw :
    lineBytes (decoderOut 0xDABF#16).line =
      [0x44#8, 0x52#8, 0x57#8, 0x20#8, 0x56#8, 0x41#8, 0x2C#8, 0x20#8, 0x56#8, 0x42#8, 0x2C#8, 0x20#8, 0x30#8, 0x78#8,
        0x46#8] := by decide

theorem test_line_port :
    linePort "CLS".toList = [0x43#8, 0x4C#8, 0x53#8, 0, 0, 0, 0, 0, 0, 0, 0, 0, 0, 0, 0] ∧ lineLen "CLS".toList = 3#4 := by
  decide

/-! ### The Word Reader, the stream, the conditions (95_test_vectors.md 2.1, 2.8, section 3) -/

theorem test_words_big_endian : words [0x01#8, 0x02#8] = [0x0102#16] := by decide

theorem test_words_odd :
    wordReader [0xAB#8, 0xCD#8, 0x01#8, 0x02#8, 0x80#8] = ([0xABCD#16, 0x0102#16], true) := by decide

theorem test_conditions_in_order :
    conditions [0x5A#8, 0xBC#8, 0xFF#8] = [.unknownInstruction 0 0x5ABC#16, .truncatedInput] := by decide

theorem test_run_continues :
    disassemble [0x00#8, 0xE0#8, 0x5A#8, 0xBC#8, 0x00#8, 0xEE#8] =
      ⟨[⟨"CLS".toList, false⟩, ⟨"0x5ABC".toList, true⟩, ⟨"RET".toList, false⟩], [1], false⟩ := by decide

/-- A state in the middle of the step trace: bytes 12 34 5A BC 60, one word done. -/
def traced : State :=
  { startRun [0x12#8, 0x34#8, 0x5A#8, 0xBC#8, 0x60#8] State.reset with widx := 1, lines := [⟨"JP 0x234".toList, false⟩] }

theorem test_trace_step_2 :
    stepped traced = some ([⟨"JP 0x234".toList, false⟩, ⟨"0x5ABC".toList, true⟩], [1], 2) := by decide

/-- The state before the final step of that trace. -/
def traced3 : State :=
  { traced with widx := 2, lines := [⟨"JP 0x234".toList, false⟩, ⟨"0x5ABC".toList, true⟩], unks := [1] }

theorem test_trace_step_3 : finish traced3 = { traced3 with trunc := true, done := true } := by decide

theorem test_single_byte_takes_one_step :
    raisedBy (startRun [0xFF#8] State.reset) = [.truncatedInput] ∧ wordCount 1 = 0 := by decide

theorem test_table_word : decodeTableWord 16 0x00E0 = some .cls ∧ decodeTableWord 16 0x5ABC = none := by decide

theorem test_condition_codes :
    conditionCode (.unknownInstruction 0 0) = 1 ∧ conditionCode .truncatedInput = 2 := by decide

theorem test_codes_of_join : lineBytes (join ["CLS".toList, "RET".toList]) =
    [0x43#8, 0x4C#8, 0x53#8, 0x0A#8, 0x52#8, 0x45#8, 0x54#8] := by decide

theorem test_zero_byte_unlisted : memWrite 3 0#8 [(3, 0x12#8)] = [] ∧ loadBytes 0 [0#8, 7#8] = [(1, 7#8)] := by decide

/-! ### Witnesses: for each statement with hypotheses, a state and operands that meet them -/

/-- The end of the run on the bytes 5A BC FF: one unknown word, an odd trailing byte. -/
def ended : State :=
  { bytes := [(0, 0x5A#8), (1, 0xBC#8), (2, 0xFF#8)], count := 3, widx := 1, lines := [⟨"0x5ABC".toList, true⟩],
    unks := [0], trunc := true, done := true }

/-- The same run before its final step. -/
def unended : State := { ended with trunc := false, done := false }

theorem test_entry_of_5ABC : entryOf 0x5ABC#16 = ⟨"0x5ABC".toList, true⟩ := by decide

theorem unended_word : wordAt unended 0 = 0x5ABC#16 := by decide

/-- A state of a run, at the boundary `2*widx + 1 = N`, with a recorded index (StepKeepsInvariant, RunNeverStuck). -/
theorem witness_run_invariant : RunInv unended where
  bytes_wf := by decide
  bytes_below := by decide
  lines_length := rfl
  cursor_le := by decide
  lines_decode := by
    intro i hi
    have h0 : i = 0 := Nat.lt_one_iff.1 hi
    rw [h0, unended_word, test_entry_of_5ABC]
    rfl
  unks_eq := rfl
  trunc_eq := rfl
  done_end := fun h => nomatch h

/-- A state of a run that is over (UnksAscendingAndExact). -/
theorem witness_run_invariant_ended : RunInv ended where
  bytes_wf := by decide
  bytes_below := by decide
  lines_length := rfl
  cursor_le := by decide
  lines_decode := by
    intro i hi
    have h0 : i = 0 := Nat.lt_one_iff.1 hi
    have hw : wordAt ended 0 = 0x5ABC#16 := by decide
    rw [h0, hw, test_entry_of_5ABC]
    rfl
  unks_eq := rfl
  trunc_eq := by decide
  done_end := by decide

/-- The invariant and the step (StepKeepsInvariant), the run not over (RunNeverStuck). -/
theorem witness_final_step : unended.done = false ∧ step unended = .next (afterFinal unended) :=
  ⟨rfl, step_of_end rfl (by decide)⟩

/-- StartOfRunValues: each of the three states. -/
theorem witness_start_of_run : (startRun [0xFF#8] ended).done = false ∧ (restart ended).lines = [] ∧
    State.reset.widx = 0 := by decide

/-- StepRunsDecoded. -/
theorem witness_step_runs_decoded :
    (placed 0x1234#16).done = false ∧ readByte (placed 0x1234#16) 0 = some 0x12#8 ∧
      readByte (placed 0x1234#16) 1 = some 0x34#8 ∧ decodeBytes [0x12#8, 0x34#8] = .ok (.jpAddr 0x234#12, []) := by
  decide

/-- StepOnUnknownWord. -/
theorem witness_step_on_unknown_word :
    (placed 0x5ABC#16).done = false ∧ (placed 0x5ABC#16).lines.length = (placed 0x5ABC#16).widx ∧
      fetchWord (placed 0x5ABC#16) = some 0x5ABC#16 ∧
      decodeWord 0x5ABC#16 = .rejected (.unknownInstruction 0x5ABC#16) := by decide

/-- FinalStepEndsRun, both clauses: the boundary `N = 2*widx + 1`, and a run that is over. -/
theorem witness_final_step_ends_run : unended.done = false ∧ unended.count = 2 * unended.widx + 1 ∧ ended.done = true := by
  decide

/-- StepIsTableStep, all three clauses: over, one whole word left (`2*widx + 2 = N`), one byte left. -/
theorem witness_step_is_table_step :
    (ended.lines.length = ended.widx ∧ ended.done = true) ∧
    ((placed 0x00E0#16).lines.length = (placed 0x00E0#16).widx ∧ (placed 0x00E0#16).done = false ∧
      (placed 0x00E0#16).count = 2 * (placed 0x00E0#16).widx + 2) ∧
    (unended.lines.length = unended.widx ∧ unended.done = false ∧ unended.count = 2 * unended.widx + 1) := by decide

/-- StepKeepsWhatWasEmitted and ConditionsRecorded: a decoding step and a final step. -/
theorem witness_steps : (∃ t, step (placed 0x00E0#16) = .next t) ∧ ∃ t, step unended = .next t :=
  ⟨⟨_, rfl⟩, ⟨_, step_of_end rfl (by decide)⟩⟩

/-- RunComputesDisassemble: `k = W` on an odd stream. -/
theorem witness_run_steps : 1 ≤ wordCount [0x5A#8, 0xBC#8, 0xFF#8].length := by decide

/-- RowsZeroToNine: a selected word, read by a step; a word its rule calls unknown. -/
theorem witness_rows_0_to_9 :
    (slice 0x3A0F#16 15 12 = 0x3 ∧ (placed 0x3A0F#16).done = false ∧ fetchWord (placed 0x3A0F#16) = some 0x3A0F#16 ∧
      (placed 0x3A0F#16).lines.length = (placed 0x3A0F#16).widx) ∧
    (slice 0x5ABC#16 15 12 = 0x5 ∧ slice 0x5ABC#16 3 0 ≠ 0) ∧ (table[2]?).isSome = true ∧ (table[9]?).isSome = true := by
  decide

/-- RowsTenToNineteen, in the same way. -/
theorem witness_rows_10_to_19 :
    (slice 0x8AB0#16 15 12 = 0x8 ∧ slice 0x8AB0#16 3 0 = 0 ∧ (placed 0x8AB0#16).done = false ∧
      fetchWord (placed 0x8AB0#16) = some 0x8AB0#16 ∧ (placed 0x8AB0#16).lines.length = (placed 0x8AB0#16).widx) ∧
    (slice 0x9AB1#16 15 12 = 0x9 ∧ slice 0x9AB1#16 3 0 ≠ 0) := by decide

/-- RowsTenToNineteen, the words whose lines differ. -/
theorem witness_lines_differ :
    matchWord 0x8454#16 = some 14 ∧ matchWord 0x7C01#16 = some 9 ∧ matchWord 0xF41E#16 = some 30 ∧
      matchWord 0x9AB0#16 = some 19 ∧ matchWord 0x4B10#16 = some 6 := by decide

/-- RowsTwentyToTwentyThree, in the same way. -/
theorem witness_rows_20_to_23 :
    slice 0xD015#16 15 12 = 0xD ∧ (placed 0xD015#16).done = false ∧ fetchWord (placed 0xD015#16) = some 0xD015#16 ∧
      (placed 0xD015#16).lines.length = (placed 0xD015#16).widx := by decide

/-- RowsTwentyFourToThirtyFour, in the same way. -/
theorem witness_rows_24_to_34 :
    slice 0xF865#16 15 12 = 0xF ∧ slice 0xF865#16 7 0 = 0x65 ∧ (placed 0xF865#16).done = false ∧
      fetchWord (placed 0xF865#16) = some 0xF865#16 ∧ (placed 0xF865#16).lines.length = (placed 0xF865#16).widx ∧
      0xFFFF#16 ∈ [0xF066#16, 0xF064#16, 0xFFFF#16] := by decide

/-- The four completion statements, and the completing clause of ExecStopsOnlyOutOfOrder. -/
theorem witness_completion : State.reset.lines.length = State.reset.widx := by decide

/-- The stopping clause of ExecStopsOnlyOutOfOrder. -/
theorem witness_out_of_order : ({ State.reset with widx := 1 } : State).lines.length ≠ 1 := by decide

/-- ExecFrame. -/
theorem witness_exec_frame : ∃ t, exec .cls State.reset = .next t := ⟨_, rfl⟩

/-- DecodeOfEncode and DecodeOfEncodedBytes, at the boundary beside the ill-formed 0x0E0; EncodeOfDecode; fewer than two
bytes. -/
theorem witness_encoding :
    wellFormed (.sysAddr 0x0DF#12) = true ∧ decodeWord 0x00DF#16 = .ok (.sysAddr 0x0DF#12) ∧ [0xFF#8].length < 2 := by
  decide

/-- MatchIsLeastIndex and RowsOverlapOnTwoWordsOnly: two rows in the table, the lower index first. -/
theorem witness_two_rows : (table[0]?).isSome = true ∧ (table[2]?).isSome = true ∧ 0 < 2 := by decide

/-- DecodeHitAndMiss and PlaceholderLine: a hit with its row, and a miss. -/
theorem witness_hit_and_miss :
    matchWord 0x1234#16 = some 3 ∧ (table[3]?).isSome = true ∧ matchWord 0x5ABC#16 = none := by decide

/-- LinePortPadded: the last position of the line, the first past it, and the last of the port. -/
theorem witness_line_port :
    (decoderOut 0x00E0#16).line[2]? = some 'S' ∧ (decoderOut 0x00E0#16).line.length ≤ 3 ∧ 14 < 15 := by decide

/-- MemReadBigEndian: the last two bytes of a stream, and the first offset past it. -/
theorem witness_mem_read :
    readByte ended 1 = some 0xBC#8 ∧ readByte ended 2 = some 0xFF#8 ∧ ended.count ≤ 3 := by decide

/-- WordsOfStream: the second pair of four bytes. -/
theorem witness_words_of_stream :
    [1#8, 2#8, 3#8, 4#8][2 * 1]? = some 3#8 ∧ [1#8, 2#8, 3#8, 4#8][2 * 1 + 1]? = some 4#8 := by decide

/-- WordsOfParts and OddByteAffectsNothing: an even length. -/
theorem witness_even_length : [1#8, 2#8].length % 2 = 0 := by decide

/-- DisassembleLaw: the conditions of 41_decoder.md R110's worked example, both kinds. -/
theorem test_conditions_both :
    conditions [0x5A#8, 0xBC#8, 0xFF#8] = [.unknownInstruction 0 0x5ABC#16, .truncatedInput] := by decide

/-- DisassembleLaw: a word of a stream, and a stream of unknown words only. -/
theorem witness_disassemble :
    (words [0x00#8, 0xE0#8])[0]? = some 0x00E0#16 ∧
      ((words [0xFF#8, 0xFF#8, 0x5A#8, 0xBC#8]).all fun w => (matchWord w).isNone) = true := by decide

/-- EntryDependsOnItsWordOnly: two different streams that agree on word 0. -/
theorem witness_same_word :
    [0x00#8, 0xE0#8][2 * 0]? = [0x00#8, 0xE0#8, 0xFF#8][2 * 0]? ∧
      [0x00#8, 0xE0#8][2 * 0 + 1]? = [0x00#8, 0xE0#8, 0xFF#8][2 * 0 + 1]? := by decide

/-- AnyDecodingOrderSameLines: the second word decoded first. -/
theorem witness_order : [1, 0].Perm (List.range (wordCount [0x00#8, 0xE0#8, 0x00#8, 0xEE#8].length)) := by decide

/-- JoinKeepsTheLines: a stream with a line. -/
theorem witness_join : (disassemble [0x00#8, 0xE0#8]).lines ≠ [] := by decide

/-- LineTellsTheWord: the only pairs that meet it are a word and itself. -/
theorem witness_same_line : (decoderOut 0x00E0#16).line = (decoderOut 0x00E0#16).line := rfl

/-- PlacedWordIsFetched: a byte space in canonical form, another byte of it, and a word that decodes. -/
theorem witness_placed_word :
    Memory.wf ended.bytes ∧ 0 < ended.count ∧ 0 ≠ 2 * ended.widx ∧ 0 ≠ 2 * ended.widx + 1 ∧
      decodeWord 0x00E0#16 = .ok .cls := by decide

end Sys2Proof.Tests
end

section
/-!
PROOFS. The shape of a line (00_scope.md R8, 30_encoding.md R77). The lines of one template differ only in the values of
their digits, and the shape does not see a digit's value; so each row is judged by the one line it prints for the
fields of word 0.
-/
namespace Sys2Proof.Machine

/-- The characters a line is made of: the digits, the other letters of names and operands, and the separators
(00_scope.md R8). -/
def lineChars : Text :=
  digits ++ ['G', 'H', 'I', 'J', 'K', 'L', 'M', 'N', 'O', 'P', 'Q', 'R', 'S', 'T', 'U', 'V', 'W', 'X', 'Y', 'Z',
    'x', ',', '[', ']', ' ']

theorem lineChars_eq : lineChars = "0123456789ABCDEFGHIJKLMNOPQRSTUVWXYZx,[] ".toList := by decide

/-- The shape of a line (00_scope.md R8, 20_memory.md R42, 30_encoding.md R77). -/
abbrev LineOk (t : Text) : Prop :=
  3 ≤ t.length ∧ t.length ≤ 15 ∧ t ⊆ lineChars ∧ t.head? ≠ some ' ' ∧ t.getLast? ≠ some ' '

/-- A character with the value of a digit forgotten. -/
def blankDigit (c : Char) : Char := if c ∈ digits then '0' else c

@[simp] theorem blankDigit_hexDigit (d : Nibble) : blankDigit (hexDigit d) = '0' := if_pos (hexDigit_mem d)

theorem blankDigit_mem_lineChars {c : Char} : blankDigit c ∈ lineChars ↔ c ∈ lineChars := by
  unfold blankDigit
  split
  · next hc => exact iff_of_true (by decide) (List.mem_append_left _ hc)
  · rfl

theorem blankDigit_eq_space {c : Char} : blankDigit c = ' ' ↔ c = ' ' := by
  unfold blankDigit
  split
  · next hc =>
    have hspace : ' ' ∉ digits := by decide
    exact iff_of_false (by decide) fun h => hspace (h ▸ hc)
  · rfl

/-- The shape of a line does not depend on the values of its digits. -/
theorem lineOk_map_blankDigit {t : Text} : LineOk (t.map blankDigit) ↔ LineOk t := by
  simp [LineOk, List.subset_def, blankDigit_mem_lineChars, blankDigit_eq_space]

theorem lineOk_congr {t u : Text} (h : t.map blankDigit = u.map blankDigit) : LineOk t ↔ LineOk u := by
  rw [← lineOk_map_blankDigit, h, lineOk_map_blankDigit]

theorem map_blankDigit_renderItem (it : Item) (f g : Fields) :
    (renderItem f it).map blankDigit = (renderItem g it).map blankDigit := by
  cases it <;> simp [renderItem, hex1, hex2, hex3]

/-- Two lines of one template differ in digits only. -/
theorem map_blankDigit_render (t : Template) (f g : Fields) :
    (render t f).map blankDigit = (render t g).map blankDigit := by
  induction t with
  | nil => rfl
  | cons it t ih =>
    rw [render_cons, render_cons, List.map_append, List.map_append, ih, map_blankDigit_renderItem it f g]

theorem map_blankDigit_placeholder (v w : Word) :
    (placeholder v).map blankDigit = (placeholder w).map blankDigit := by
  simp [placeholder, hex4]

/-- One line of each row: a check of the 35 templates (30_encoding.md R71). -/
theorem lineOk_renderRow_zero : ∀ r ∈ table, LineOk (renderRow r 0#16) := by decide

theorem lineOk_renderRow {r : Row} (hr : r ∈ table) (w : Word) : LineOk (renderRow r w) :=
  (lineOk_congr (map_blankDigit_render r.template (extract w) (extract 0#16))).2 (lineOk_renderRow_zero r hr)

theorem lineOk_placeholder (w : Word) : LineOk (placeholder w) :=
  (lineOk_congr (map_blankDigit_placeholder w 0#16)).2 (by decide)

/-- Settles O35: the line of a word is that of a row of the table or its placeholder, and each has the shape. -/
theorem lineShape : Obligations.LineShape := by
  intro w
  rw [← lineChars_eq]
  show LineOk (decoderOut w).line
  cases h : selectRow w with
  | none =>
    rw [decoderOut_of_none h]
    exact lineOk_placeholder w
  | some p =>
    obtain ⟨k, r⟩ := p
    obtain ⟨hk, -, -⟩ := selectRow_eq_some h
    rw [decoderOut_of_some h]
    exact lineOk_renderRow (List.mem_of_getElem? hk) w

end Sys2Proof.Machine
end

section
/-!
PROOFS. The step in terms of `Decode`: a whole word left is emitted as `Decode` renders it, else the run ends
(41_decoder.md R110, R106). With it, what every step keeps of the state it starts from.
-/
namespace Sys2Proof.Machine

/-- With a whole word left and the line sink in order, the step appends the entry of the word at the cursor: the row's
meaning on a hit, the placeholder on a miss. -/
theorem step_of_wordRemains {s : State} (hd : s.done = false) (hl : s.lines.length = s.widx)
    (hg : 2 * s.widx + 1 < s.count) :
    step s = .next (afterEntry (entryOf (wordAt s s.widx)).line (entryOf (wordAt s s.widx)).unk s) := by
  rw [step_of_word hd (fetchWord_eq_some.2 ⟨hg, rfl⟩), entryOf]
  cases hr : selectRow (wordAt s s.widx) with
  | none =>
    rw [decodeWord_eq_rejected.2 ⟨hr, rfl⟩, decoderOut_of_none hr]
    exact emitUnknown_eq hl
  | some p =>
    obtain ⟨k, r⟩ := p
    obtain ⟨hk, -, -⟩ := selectRow_eq_some hr
    rw [decodeWord_eq_ok.2 ⟨k, r, hr, rfl⟩, decoderOut_of_some hr]
    exact (exec_build (List.mem_of_getElem? hk) _ s).trans (emitLine_eq hl)

/-- A step that decodes a word found the line sink in order, else `Emit` would have faulted. -/
theorem lines_length_of_step {s t : State} (h : step s = .next t) (hg : 2 * s.widx + 1 < s.count) :
    s.lines.length = s.widx := by
  obtain ⟨-, ⟨_, _, -, hl, -⟩ | ⟨_, -, hl, -⟩ | ⟨hend, -⟩⟩ := step_next h
  · exact hl
  · exact hl
  · omega

/-- All that a step can do: append the entry of the word at the cursor, or end the run. -/
theorem step_next_entryOf {s t : State} (h : step s = .next t) :
    s.done = false ∧
    ((2 * s.widx + 1 < s.count ∧ s.lines.length = s.widx ∧
        t = afterEntry (entryOf (wordAt s s.widx)).line (entryOf (wordAt s s.widx)).unk s) ∨
      (s.count ≤ 2 * s.widx + 1 ∧ t = afterFinal s)) := by
  obtain ⟨hd, -⟩ := step_next h
  refine ⟨hd, ?_⟩
  by_cases hg : 2 * s.widx + 1 < s.count
  · have hl := lines_length_of_step h hg
    rw [step_of_wordRemains hd hl hg] at h
    cases h
    exact .inl ⟨hg, hl, rfl⟩
  · have hend := Nat.not_lt.1 hg
    rw [step_of_end hd hend] at h
    cases h
    exact .inr ⟨hend, rfl⟩

theorem unks_prefix_afterEntry (l : Text) (u : Bool) (s : State) : s.unks <+: (afterEntry l u s).unks := by
  cases u with
  | false => exact List.prefix_refl _
  | true => exact List.prefix_append _ _

/-- Settles O8: a step appends one entry or ends the run, and neither writes the input or takes back what was
emitted. -/
theorem stepKeepsWhatWasEmitted : Obligations.StepKeepsWhatWasEmitted := by
  intro s t h
  obtain ⟨hd, ⟨hg, -, rfl⟩ | ⟨hend, rfl⟩⟩ := step_next_entryOf h
  · exact ⟨rfl, rfl, readByte_afterEntry _ _ s, hd, List.prefix_append _ _, unks_prefix_afterEntry _ _ s, id,
      .inl ⟨hg, rfl, by simp, rfl, hd⟩⟩
  · exact ⟨rfl, rfl, readByte_afterFinal s, hd, List.prefix_refl _, List.prefix_refl _, fun ht => by simp [ht],
      .inr ⟨hend, rfl, rfl, rfl, rfl⟩⟩

end Sys2Proof.Machine
end

section
/-!
PROOFS. The invariant of a run (`RunInv`): the start of a run meets it, and so does the reset state, which is the start
of the run on the empty stream; the decoding step and the final step each keep it.
-/
namespace Sys2Proof.Machine

/-! ### The indices of the unknown entries -/

theorem unksFrom_append (i : Nat) (es fs : List Entry) :
    unksFrom i (es ++ fs) = unksFrom i es ++ unksFrom (i + es.length) fs := by
  induction es generalizing i with
  | nil => rfl
  | cons e es ih =>
    have hi : i + 1 + es.length = i + (es.length + 1) := by omega
    simp only [List.cons_append, unksFrom, ih, List.length_cons, hi]
    split <;> rfl

/-- `UNKS` grows as the step writes it: by the index of the appended entry where its `UNK` bit is 1. -/
theorem unksOf_concat (es : List Entry) (e : Entry) :
    unksOf (es ++ [e]) = if e.unk then unksOf es ++ [es.length] else unksOf es := by
  rw [unksOf, unksFrom_append, Nat.zero_add]
  cases hu : e.unk <;> simp [unksFrom, unksOf, hu]

/-! ### The bytes of the start of a run -/

theorem memLookup_startRun (bs : List Byte) (s : State) (a : Nat) :
    memLookup a (startRun bs s).bytes = bs.getD a unlistedByte := by
  simpa using memLookup_loadBytes 0 bs a

theorem readByte_startRun (bs : List Byte) (s : State) (a : Nat) : readByte (startRun bs s) a = bs[a]? := by
  cases h : bs[a]? with
  | none => exact readByte_eq_none.2 (List.getElem?_eq_none_iff.1 h)
  | some b =>
    obtain ⟨ha, -⟩ := List.getElem?_eq_some_iff.1 h
    exact readByte_eq_some.2 ⟨ha, by rw [memLookup_startRun]; simp [h]⟩

/-- Position `a` of the stream a state stands for is what a read at offset `a` answers. -/
theorem getElem?_streamOf (s : State) (a : Nat) : (streamOf s)[a]? = readByte s a := by
  unfold streamOf readByte
  by_cases h : a < s.count <;> simp [h]

theorem streamOf_startRun (bs : List Byte) (s : State) : streamOf (startRun bs s) = bs :=
  List.ext_getElem? fun a => (getElem?_streamOf _ a).trans (readByte_startRun bs s a)

/-! ### The invariant at the start of a run -/

theorem runInv_startRun (bs : List Byte) (s : State) : RunInv (startRun bs s) where
  bytes_wf := startRun_bytes_wf bs s
  bytes_below := fun c hc => by simpa using loadBytes_lt c hc
  lines_length := rfl
  cursor_le := Nat.zero_le _
  lines_decode := fun i hi => absurd hi (Nat.not_lt_zero i)
  unks_eq := rfl
  trunc_eq := rfl
  done_end := fun h => nomatch h

/-- Settles O3: the list laid down from offset 0 reads back byte by byte. -/
theorem startOfRunHoldsBytes : Obligations.StartOfRunHoldsBytes :=
  fun bs s => ⟨runInv_startRun bs s, readByte_startRun bs s, streamOf_startRun bs s⟩

theorem startRun_nil_reset : startRun [] State.reset = State.reset := rfl

/-- Settles O2: the reset state is the start of the run on the empty stream. -/
theorem resetMeetsInvariant : Obligations.ResetMeetsInvariant := by
  rw [Obligations.ResetMeetsInvariant, ← startRun_nil_reset]
  exact runInv_startRun [] State.reset

/-! ### The invariant over a step -/

/-- The decoding step: the appended entry is the decoding of the word at the cursor, so the entries, `UNKS` and the
cursor grow together. -/
theorem runInv_afterEntry {s : State} (h : RunInv s) (hd : s.done = false) (hg : 2 * s.widx + 1 < s.count) :
    RunInv (afterEntry (entryOf (wordAt s s.widx)).line (entryOf (wordAt s s.widx)).unk s) where
  bytes_wf := h.bytes_wf
  bytes_below := h.bytes_below
  lines_length := by simp [h.lines_length]
  cursor_le := by
    show s.widx + 1 ≤ s.count / 2
    omega
  lines_decode := by
    intro i hi
    rw [afterEntry_lines, wordAt_afterEntry]
    obtain hlt | rfl : i < s.widx ∨ i = s.widx := by rw [afterEntry_widx] at hi; omega
    · rw [List.getElem?_append_left (by rwa [h.lines_length])]
      exact h.lines_decode i hlt
    · rw [← h.lines_length]
      exact List.getElem?_concat_length
  unks_eq := by rw [afterEntry_unks, afterEntry_lines, unksOf_concat, h.unks_eq, h.lines_length]
  trunc_eq := h.trunc_eq
  done_end := fun ht => by simp [hd] at ht

/-- The final step: the cursor, at most `W` by the invariant, is at `W` where no whole word is left, and `TRUNC`, still
0, is set exactly where `N` is odd. -/
theorem runInv_afterFinal {s : State} (h : RunInv s) (hd : s.done = false) (hend : s.count ≤ 2 * s.widx + 1) :
    RunInv (afterFinal s) where
  bytes_wf := h.bytes_wf
  bytes_below := h.bytes_below
  lines_length := h.lines_length
  cursor_le := h.cursor_le
  lines_decode := h.lines_decode
  unks_eq := h.unks_eq
  trunc_eq := by simp [h.trunc_eq, hd]
  done_end := fun _ => by
    have hle : s.widx ≤ s.count / 2 := h.cursor_le
    show s.widx = s.count / 2
    omega

/-- Settles O9: the decoding step and the final step are all that a step can do, and each keeps the
invariant. -/
theorem stepKeepsInvariant : Obligations.StepKeepsInvariant := by
  intro s t hs h
  obtain ⟨hd, ⟨hg, -, rfl⟩ | ⟨hend, rfl⟩⟩ := step_next_entryOf h
  · exact runInv_afterEntry hs hd hg
  · exact runInv_afterFinal hs hd hend

end Sys2Proof.Machine
end

section
/-!
PROOFS. The fixed-width line port (10_state.md R32): the line's bytes, then zeros up to `LINE_MAX`. Its width is exact
because no line is longer than `LINE_MAX` (00_scope.md R8).
-/
namespace Sys2Proof.Machine

theorem line_length_le (w : Word) : (decoderOut w).line.length ≤ Config.lineMax := by
  obtain ⟨-, hmax, -⟩ := lineShape w
  exact hmax

theorem length_lineBytes (t : Text) : (lineBytes t).length = t.length := List.length_map _

theorem length_linePort {t : Text} (h : t.length ≤ Config.lineMax) : (linePort t).length = Config.lineMax := by
  rw [linePort, List.length_append, length_lineBytes, List.length_replicate]
  omega

theorem toNat_lineLen {t : Text} (h : t.length ≤ Config.lineMax) : (lineLen t).toNat = t.length :=
  Nat.mod_eq_of_lt (Nat.lt_succ_of_le h)

/-- A position of the line holds its character's code. -/
theorem getElem?_linePort_line {t : Text} {i : Nat} {c : Char} (h : t[i]? = some c) :
    (linePort t)[i]? = some (charByte c) := by
  obtain ⟨hi, -⟩ := List.getElem?_eq_some_iff.1 h
  rw [linePort, List.getElem?_append_left (by rwa [length_lineBytes]), lineBytes, List.getElem?_map, h]
  rfl

/-- A position past the line holds 0x00. -/
theorem getElem?_linePort_pad {t : Text} {i : Nat} (hi : t.length ≤ i) (hmax : i < Config.lineMax) :
    (linePort t)[i]? = some 0#8 := by
  rw [linePort, List.getElem?_append_right (by rwa [length_lineBytes]), length_lineBytes]
  exact List.getElem?_replicate_of_lt (by omega)

/-- Settles O40: the port of any line of at most `LINE_MAX` characters, and every word's line is one. -/
theorem linePortPadded : Obligations.LinePortPadded := by
  intro w
  have hmax := line_length_le w
  exact ⟨length_linePort hmax, toNat_lineLen hmax, fun _ _ => getElem?_linePort_line,
    fun _ => getElem?_linePort_pad⟩

end Sys2Proof.Machine
end

section
/-!
PROOFS. What an instruction can do, in terms of `afterEntry` (20_memory.md R42, R43): with the line sink in order it
appends one entry, else it faults. Then the Word Reader's pair (R44), and a word placed where the next step reads.
-/
namespace Sys2Proof.Machine

/-! ### The instructions -/

/-- All that an instruction can do when it completes: append one entry with `UNK = 0` to a line sink in order, and move
the cursor. -/
theorem exec_next {i : Instr} {s t : State} (h : exec i s = .next t) :
    s.lines.length = s.widx ∧ ∃ l, t = afterEntry l false s := by
  obtain ⟨l, hl⟩ := exec_emits i
  obtain ⟨hlen, ht⟩ := emitLine_next.1 ((hl s).symm.trans h)
  exact ⟨hlen, l, ht⟩

/-- Settles O23: the state after an instruction is `afterEntry`, which writes `LINES` and the cursor only. -/
theorem execFrame : Obligations.ExecFrame := by
  intro i s t h
  obtain ⟨-, l, rfl⟩ := exec_next h
  exact ⟨rfl, rfl, readByte_afterEntry l false s, rfl, rfl, rfl, rfl, l, rfl⟩

/-- Settles O24: an instruction is the `Emit` of one line, which completes exactly on a line sink in order. -/
theorem execStopsOnlyOutOfOrder : Obligations.ExecStopsOnlyOutOfOrder := by
  intro i s
  obtain ⟨l, hl⟩ := exec_emits i
  rw [hl s]
  exact ⟨fun h => ⟨_, emitLine_eq h⟩, emitLine_out⟩

/-! ### The big-endian pair -/

/-- The two bytes of a pair do not overlap, so their OR is the sum of `hi * 256` and `lo`. -/
theorem toNat_pairBytes (hi lo : Byte) : (pairBytes hi lo).toNat = hi.toNat * 256 + lo.toNat := by
  have hhi : hi.toNat < 256 := hi.isLt
  have high : (hi.setWidth 16 <<< 8 : Word).toNat = hi.toNat <<< 8 := by
    rw [BitVec.toNat_shiftLeft, BitVec.toNat_setWidth_of_le (by decide), Nat.shiftLeft_eq, Nat.mod_eq_of_lt (by omega)]
  have low : (lo.setWidth 16 : Word).toNat = lo.toNat := BitVec.toNat_setWidth_of_le (by decide)
  calc (pairBytes hi lo).toNat = hi.toNat <<< 8 ||| lo.toNat := by rw [pairBytes, BitVec.toNat_or, high, low]
    _ = hi.toNat <<< 8 + lo.toNat := (Nat.shiftLeft_add_eq_or_of_lt lo.isLt hi.toNat).symm
    _ = hi.toNat * 256 + lo.toNat := by rw [Nat.shiftLeft_eq]

theorem readWord_of_bytes {s : State} {a : Nat} {hi lo : Byte} (hhi : readByte s a = some hi)
    (hlo : readByte s (a + 1) = some lo) : readWord s a = some (pairBytes hi lo) := by
  obtain ⟨-, rfl⟩ := readByte_eq_some.1 hhi
  obtain ⟨hlt, rfl⟩ := readByte_eq_some.1 hlo
  exact readWord_eq_some.2 ⟨hlt, rfl⟩

/-- Settles O41: the word read is `pairBytes` of the two bytes, and no offset at or past `N` holds one. -/
theorem memReadBigEndian : Obligations.MemReadBigEndian :=
  ⟨fun _ _ hi lo hhi hlo => ⟨pairBytes hi lo, readWord_of_bytes hhi hlo, rfl, toNat_pairBytes hi lo⟩,
    fun _ _ => readByte_eq_none.2⟩

/-! ### A word placed for the next step -/

@[simp] theorem tableWord_toNat (w : Word) : tableWord 16 w.toNat = w := by
  have hw : w.toNat % 2 ^ 16 = w.toNat := Nat.mod_eq_of_lt w.isLt
  rw [tableWord, hw, BitVec.ofNat_toNat, BitVec.setWidth_eq]

theorem withFetchWord_toNat (s : State) (w : Word) : s.withFetchWord 16 w.toNat = placeWord w s := by
  rw [State.withFetchWord, tableWord_toNat]

theorem fetchWord_placeWord {s : State} (w : Word) (h : Memory.wf s.bytes) : fetchWord (placeWord w s) = some w := by
  have hguard : 2 * s.widx + 1 < max s.count (2 * s.widx + 2) := by omega
  have hhi : memLookup (2 * s.widx) (placeWord w s).bytes = highByte w := by
    rw [memLookup_placeWord w h, if_neg (by omega), if_pos rfl]
  have hlo : memLookup (2 * s.widx + 1) (placeWord w s).bytes = lowByte w := by
    rw [memLookup_placeWord w h, if_pos rfl]
  rw [fetchWord_eq_some, wordAt, placeWord_widx, hhi, hlo]
  exact ⟨hguard, pairBytes_wordBytes w⟩

/-- Placing a word writes at the word's two offsets only. -/
theorem memLookup_placeWord_of_ne {s : State} (w : Word) (h : Memory.wf s.bytes) {a : Nat} (hhi : a ≠ 2 * s.widx)
    (hlo : a ≠ 2 * s.widx + 1) : memLookup a (placeWord w s).bytes = memLookup a s.bytes := by
  rw [memLookup_placeWord w h, if_neg hlo.symm, if_neg hhi.symm]

/-- Placing a word takes no offset away, so a byte below `N` at another offset reads as before. -/
theorem readByte_placeWord_of_ne {s : State} (w : Word) (h : Memory.wf s.bytes) {a : Nat} (ha : a < s.count)
    (hhi : a ≠ 2 * s.widx) (hlo : a ≠ 2 * s.widx + 1) : readByte (placeWord w s) a = readByte s a := by
  have ha' : a < (placeWord w s).count := Nat.lt_of_lt_of_le ha (Nat.le_max_left _ _)
  rw [readByte, readByte, if_pos ha', if_pos ha, memLookup_placeWord_of_ne w h hhi hlo]

/-- A word read by a run that is not over and decoded to an instruction makes the step that instruction's meaning. -/
theorem step_eq_exec {s : State} {w : Word} {i : Instr} (hd : s.done = false) (hw : fetchWord s = some w)
    (hi : decodeWord w = .ok i) : step s = exec i s := by
  rw [step_of_word hd hw, hi]

/-- Settles O50: the placed state is `placeWord`, whose two writes hit the word's two offsets and no other. -/
theorem placedWordIsFetched : Obligations.PlacedWordIsFetched := by
  intro s w hwf
  rw [withFetchWord_toNat]
  have hfetch := fetchWord_placeWord w hwf
  exact ⟨hfetch, placeWord_bytes_wf w hwf, fun _ => memLookup_placeWord_of_ne w hwf,
    fun _ => readByte_placeWord_of_ne w hwf, rfl, rfl, rfl, rfl, rfl, rfl, fun _ => step_eq_exec rfl hfetch⟩

end Sys2Proof.Machine
end

section
/-!
PROOFS. The encoding (30_encoding.md). Two rows that apply to one word agree under both masks, which only row 2 does with
a row before it; so an instruction's own row is the first that applies to its word (R72), and decoding and encoding undo
each other (R63, R107). On bytes, an instruction is the two bytes of its word (R60).
-/
namespace Sys2Proof.Machine

/-! ### Overlapping rows -/

/-- Of the pairs of rows, only (0, 2) and (1, 2) have match values that agree under both masks (30_encoding.md R72). -/
theorem rows_agree : ∀ k < 35, ∀ j < k, ∀ rj ∈ table[j]?, ∀ rk ∈ table[k]?,
    rj.value &&& rk.mask = rk.value &&& rj.mask → (j = 0 ∨ j = 1) ∧ k = 2 := by decide

theorem lt_of_table_getElem? {k : Nat} {r : Row} (h : table[k]? = some r) : k < 35 := by
  obtain ⟨hk, -⟩ := List.getElem?_eq_some_iff.1 h
  exact hk

/-- Rows 0 and 1 test every bit of the word, so each applies to one word. -/
theorem rowApplies_of_fullMask {r : Row} (h : r.mask = BitVec.allOnes 16) {w : Word} :
    rowApplies r w = true ↔ w = r.value := by
  rw [rowApplies, h, BitVec.and_allOnes, beq_iff_eq]

/-- A row that applies beside a later one is row 0 or row 1, and the later one is row 2. -/
theorem rows_overlap {j k : Nat} {rj rk : Row} {w : Word} (hjk : j < k) (hj : table[j]? = some rj)
    (hk : table[k]? = some rk) (haj : rowApplies rj w = true) (hak : rowApplies rk w = true) :
    (j = 0 ∧ k = 2 ∧ w = 0x00E0#16) ∨ (j = 1 ∧ k = 2 ∧ w = 0x00EE#16) := by
  obtain ⟨rfl | rfl, rfl⟩ :=
    rows_agree k (lt_of_table_getElem? hk) j hjk rj hj rk hk (rowApplies_agree haj hak)
  · cases hj
    exact .inl ⟨rfl, rfl, (rowApplies_of_fullMask rfl).1 haj⟩
  · cases hj
    exact .inr ⟨rfl, rfl, (rowApplies_of_fullMask rfl).1 haj⟩

/-- Settles O30: the pairs are those that agree under both masks, and rows 0 and 1 apply to one word each. -/
theorem rowsOverlapOnTwoWordsOnly : Obligations.RowsOverlapOnTwoWordsOnly := by
  refine ⟨fun j k rj rk w hjk hj hk => ⟨fun ⟨haj, hak⟩ => rows_overlap hjk hj hk haj hak, ?_⟩, by decide⟩
  rintro (⟨rfl, rfl, rfl⟩ | ⟨rfl, rfl, rfl⟩)
  · cases hj; cases hk; decide
  · cases hj; cases hk; decide

/-! ### The row of an instruction's word -/

theorem rowSelects (i : Instr) : Laws.RowSelects.Statement i := by
  cases i with
  | cls => exact Laws.RowSelects.cls
  | ret => exact Laws.RowSelects.ret
  | sysAddr nnn => exact Laws.RowSelects.sysAddr nnn
  | jpAddr nnn => exact Laws.RowSelects.jpAddr nnn
  | callAddr nnn => exact Laws.RowSelects.callAddr nnn
  | seVxByte x nn => exact Laws.RowSelects.seVxByte x nn
  | sneVxByte x nn => exact Laws.RowSelects.sneVxByte x nn
  | seVxVy x y => exact Laws.RowSelects.seVxVy x y
  | ldVxByte x nn => exact Laws.RowSelects.ldVxByte x nn
  | addVxByte x nn => exact Laws.RowSelects.addVxByte x nn
  | ldVxVy x y => exact Laws.RowSelects.ldVxVy x y
  | orVxVy x y => exact Laws.RowSelects.orVxVy x y
  | andVxVy x y => exact Laws.RowSelects.andVxVy x y
  | xorVxVy x y => exact Laws.RowSelects.xorVxVy x y
  | addVxVy x y => exact Laws.RowSelects.addVxVy x y
  | subVxVy x y => exact Laws.RowSelects.subVxVy x y
  | shrVxVy x y => exact Laws.RowSelects.shrVxVy x y
  | subnVxVy x y => exact Laws.RowSelects.subnVxVy x y
  | shlVxVy x y => exact Laws.RowSelects.shlVxVy x y
  | sneVxVy x y => exact Laws.RowSelects.sneVxVy x y
  | ldIAddr nnn => exact Laws.RowSelects.ldIAddr nnn
  | jpV0Addr nnn => exact Laws.RowSelects.jpV0Addr nnn
  | rndVxByte x nn => exact Laws.RowSelects.rndVxByte x nn
  | drwVxVyNibble x y n => exact Laws.RowSelects.drwVxVyNibble x y n
  | skpVx x => exact Laws.RowSelects.skpVx x
  | sknpVx x => exact Laws.RowSelects.sknpVx x
  | ldVxDt x => exact Laws.RowSelects.ldVxDt x
  | ldVxK x => exact Laws.RowSelects.ldVxK x
  | ldDtVx x => exact Laws.RowSelects.ldDtVx x
  | ldStVx x => exact Laws.RowSelects.ldStVx x
  | addIVx x => exact Laws.RowSelects.addIVx x
  | ldFVx x => exact Laws.RowSelects.ldFVx x
  | ldBVx x => exact Laws.RowSelects.ldBVx x
  | ldIndVx x => exact Laws.RowSelects.ldIndVx x
  | ldVxInd x => exact Laws.RowSelects.ldVxInd x

/-- The one condition of well-formedness: the two words of rows 0 and 1 are no word of row 2 (R132). -/
theorem wellFormed_iff {i : Instr} :
    wellFormed i = true ↔ i ≠ .sysAddr 0x0E0#12 ∧ i ≠ .sysAddr 0x0EE#12 := by
  cases i <;> simp [wellFormed]

theorem eq_sysAddr_of_encode {i : Instr} {nnn : Addr} (hi : rowIndex i = 2) (h : encode i = 0x0#4 ++ nnn) :
    i = .sysAddr nnn := by
  cases i with
  | sysAddr v =>
    obtain ⟨-, rfl⟩ := (append_inj_iff _ _ _ _).1 h
    rfl
  | _ => cases hi

/-- The row of a well-formed instruction is the first that applies to its word: an earlier one would be row 0 or row 1,
and the instruction one of the two that have no word (30_encoding.md R72, R132). -/
theorem not_rowApplies_before {i : Instr} (hwf : wellFormed i = true) {j : Nat} {r : Row} (hj : j < rowIndex i)
    (hr : table[j]? = some r) : rowApplies r (encode i) = false := by
  obtain ⟨hE0, hEE⟩ := wellFormed_iff.1 hwf
  obtain ⟨ri, hi, hai, -⟩ := rowSelects i
  refine Bool.eq_false_iff.2 fun ha => ?_
  obtain ⟨-, h2, hw⟩ | ⟨-, h2, hw⟩ := rows_overlap hj hr hi ha hai
  · exact hE0 (eq_sysAddr_of_encode h2 hw)
  · exact hEE (eq_sysAddr_of_encode h2 hw)

/-- The first row that applies is the selected one (41_decoder.md R101). -/
theorem selectRow_of_first {w : Word} {k : Nat} {r : Row} (hk : table[k]? = some r) (ha : rowApplies r w = true)
    (hfirst : ∀ j r', j < k → table[j]? = some r' → rowApplies r' w = false) : selectRow w = some (k, r) := by
  cases h : selectRow w with
  | none => exact absurd (selectRow_eq_none.1 h r (List.mem_of_getElem? hk)) (by simp [ha])
  | some p =>
    obtain ⟨k', r'⟩ := p
    obtain ⟨hk', ha', hfirst'⟩ := selectRow_eq_some h
    obtain hlt | rfl | hlt := Nat.lt_trichotomy k' k
    · exact absurd (hfirst k' r' hlt hk') (by simp [ha'])
    · rw [Option.some.inj (hk.symm.trans hk')]
    · exact absurd (hfirst' k r hlt hk) (by simp [ha])

/-! ### The fields of a word by format (30_encoding.md R61, R62) -/

theorem extract_nnn (v : Nibble) (nnn : Addr) : (extract (v ++ nnn)).nnn = nnn :=
  BitVec.extractLsb'_append_eq_right

theorem extract_x (v x : Nibble) (nn : Byte) : (extract (v ++ x ++ nn)).x = x :=
  (BitVec.extractLsb'_append_eq_of_le (by decide)).trans BitVec.extractLsb'_append_eq_right

theorem extract_nn (v x : Nibble) (nn : Byte) : (extract (v ++ x ++ nn)).nn = nn :=
  BitVec.extractLsb'_append_eq_right

theorem append_nibbles (v x y n : Nibble) : (v ++ x ++ y ++ n : Word) = ofNibbles v x y n := by
  rw [BitVec.append_assoc (x₁ := v ++ x), BitVec.append_assoc (x₁ := v)]
  rfl

theorem append_byte (v x y n : Nibble) : (v ++ x ++ (y ++ n) : Word) = ofNibbles v x y n :=
  BitVec.append_assoc

theorem extract_nibble_x (v x y n : Nibble) : (extract (v ++ x ++ y ++ n)).x = x := by
  rw [append_nibbles, extract_nibbles]

theorem extract_nibble_y (v x y n : Nibble) : (extract (v ++ x ++ y ++ n)).y = y := by
  rw [append_nibbles, extract_nibbles]

theorem extract_nibble_n (v x y n : Nibble) : (extract (v ++ x ++ y ++ n)).n = n := by
  rw [append_nibbles, extract_nibbles]

/-- An instruction's row builds the instruction back from the fields of its word. -/
theorem build_extract_encode {i : Instr} {r : Row} (h : table[rowIndex i]? = some r) :
    r.build (extract (encode i)) = i := by
  cases i with
  | cls | ret => cases h; rfl
  | sysAddr nnn | jpAddr nnn | callAddr nnn | ldIAddr nnn | jpV0Addr nnn =>
    cases h
    exact congrArg _ (extract_nnn _ nnn)
  | seVxByte x nn | sneVxByte x nn | ldVxByte x nn | addVxByte x nn | rndVxByte x nn =>
    cases h
    exact congrArg₂ _ (extract_x _ x nn) (extract_nn _ x nn)
  | seVxVy x y | ldVxVy x y | orVxVy x y | andVxVy x y | xorVxVy x y | addVxVy x y | subVxVy x y | shrVxVy x y
  | subnVxVy x y | shlVxVy x y | sneVxVy x y =>
    cases h
    exact congrArg₂ _ (extract_nibble_x _ x y _) (extract_nibble_y _ x y _)
  | drwVxVyNibble x y n =>
    cases h
    simp only [encode, extract_nibble_x, extract_nibble_y, extract_nibble_n]
  | skpVx x | sknpVx x | ldVxDt x | ldVxK x | ldDtVx x | ldStVx x | addIVx x | ldFVx x | ldBVx x | ldIndVx x
  | ldVxInd x =>
    cases h
    exact congrArg _ (extract_x _ x _)

/-- Settles O25: the instruction's own row is the first that applies to its word, and builds the instruction from the
word's fields. -/
theorem decodeOfEncode : Obligations.DecodeOfEncode := by
  intro i hwf
  obtain ⟨r, hr, ha, -⟩ := rowSelects i
  exact decodeWord_eq_ok.2
    ⟨rowIndex i, r, selectRow_of_first hr ha fun _ _ => not_rowApplies_before hwf, build_extract_encode hr⟩

/-! ### The word of a decoded instruction -/

theorem rowIndex_builds (f : Fields) : table.map (fun r => rowIndex (r.build f)) = List.range 35 := rfl

theorem rowIndex_build {k : Nat} {r : Row} (h : table[k]? = some r) (f : Fields) : rowIndex (r.build f) = k := by
  have hk := congrArg (·[k]?) (rowIndex_builds f)
  simpa [h, lt_of_table_getElem? h] using hk

/-! A word that a format's mask and match value select is the format's constant bits with the word's own fields. -/

theorem opcode_of_and {a b c d v : Nibble} (h : ofNibbles a b c d &&& 0xF000#16 = v ++ 0#12) : a = v := by
  obtain ⟨rfl, -⟩ := (append_inj_iff _ _ _ _).1 ((and_opcode a (b ++ (c ++ d))).symm.trans h)
  rfl

theorem eq_of_opcode {v : Nibble} {w : Word} (h : w &&& 0xF000#16 = v ++ 0#12) : v ++ (extract w).nnn = w := by
  obtain ⟨a, b, c, d, rfl⟩ := exists_nibbles w
  rw [extract_nibbles, opcode_of_and h]
  rfl

theorem eq_of_opcode_byte {v : Nibble} {w : Word} (h : w &&& 0xF000#16 = v ++ 0#12) :
    v ++ (extract w).x ++ (extract w).nn = w := by
  obtain ⟨a, b, c, d, rfl⟩ := exists_nibbles w
  rw [extract_nibbles, opcode_of_and h]
  exact append_byte v b c d

theorem eq_of_opcode_nibbles {v : Nibble} {w : Word} (h : w &&& 0xF000#16 = v ++ 0#12) :
    v ++ (extract w).x ++ (extract w).y ++ (extract w).n = w := by
  obtain ⟨a, b, c, d, rfl⟩ := exists_nibbles w
  rw [extract_nibbles, opcode_of_and h]
  exact append_nibbles v b c d

theorem eq_of_opcode_sub {v k : Nibble} {w : Word} (h : w &&& 0xF00F#16 = v ++ 0#8 ++ k) :
    v ++ (extract w).x ++ (extract w).y ++ k = w := by
  obtain ⟨a, b, c, d, rfl⟩ := exists_nibbles w
  rw [← append_nibbles, and_opcode_sub, append_inj_iff, append_inj_iff] at h
  obtain ⟨⟨rfl, -⟩, rfl⟩ := h
  rw [extract_nibbles]
  exact append_nibbles a b c d

theorem eq_of_opcode_low {v : Nibble} {k : Byte} {w : Word} (h : w &&& 0xF0FF#16 = v ++ 0#4 ++ k) :
    v ++ (extract w).x ++ k = w := by
  obtain ⟨a, b, c, d, rfl⟩ := exists_nibbles w
  rw [← append_byte, and_opcode_low, append_inj_iff, append_inj_iff] at h
  obtain ⟨⟨rfl, -⟩, rfl⟩ := h
  rw [extract_nibbles]
  exact append_byte a b c d

/-- What a row builds from the fields of a word it applies to encodes back to that word. -/
theorem encode_build {k : Nat} {r : Row} {w : Word} {i : Instr} (hk : table[k]? = some r)
    (ha : rowApplies r w = true) (hi : r.build (extract w) = i) : encode i = w := by
  have hki : rowIndex i = k := hi ▸ rowIndex_build hk _
  subst hki
  have hand : w &&& r.mask = r.value := eq_of_beq ha
  cases i with
  | cls | ret =>
    cases hk
    exact ((rowApplies_of_fullMask rfl).1 ha).symm
  | sysAddr nnn | jpAddr nnn | callAddr nnn | ldIAddr nnn | jpV0Addr nnn =>
    cases hk
    cases hi
    exact eq_of_opcode hand
  | seVxByte x nn | sneVxByte x nn | ldVxByte x nn | addVxByte x nn | rndVxByte x nn =>
    cases hk
    cases hi
    exact eq_of_opcode_byte hand
  | seVxVy x y | ldVxVy x y | orVxVy x y | andVxVy x y | xorVxVy x y | addVxVy x y | subVxVy x y | shrVxVy x y
  | subnVxVy x y | shlVxVy x y | sneVxVy x y =>
    cases hk
    cases hi
    exact eq_of_opcode_sub hand
  | drwVxVyNibble x y n =>
    cases hk
    cases hi
    exact eq_of_opcode_nibbles hand
  | skpVx x | sknpVx x | ldVxDt x | ldVxK x | ldDtVx x | ldStVx x | addIVx x | ldFVx x | ldBVx x | ldIndVx x
  | ldVxInd x =>
    cases hk
    cases hi
    exact eq_of_opcode_low hand

theorem encode_of_decode {w : Word} {i : Instr} (h : decodeWord w = .ok i) : encode i = w := by
  obtain ⟨k, r, hr, hi⟩ := decodeWord_eq_ok.1 h
  obtain ⟨hk, ha, -⟩ := selectRow_eq_some hr
  exact encode_build hk ha hi

/-- The words of the two ill-formed instructions decode to `CLS` and `RET`. -/
theorem wellFormed_of_decode {w : Word} {i : Instr} (h : decodeWord w = .ok i) : wellFormed i = true := by
  have hw : decodeWord (encode i) = .ok i := by rwa [encode_of_decode h]
  refine wellFormed_iff.2 ⟨?_, ?_⟩
  · rintro rfl
    exact absurd hw (by decide)
  · rintro rfl
    exact absurd hw (by decide)

/-- Settles O26: the selected row's constant bits and the word's own fields make the word. -/
theorem encodeOfDecode : Obligations.EncodeOfDecode :=
  fun _ _ h => ⟨wellFormed_of_decode h, encode_of_decode h⟩

/-! ### Instructions as bytes -/

/-- Settles O27: the two bytes pair to the instruction's word again. -/
theorem decodeOfEncodedBytes : Obligations.DecodeOfEncodedBytes := by
  constructor
  · intro i rest hwf
    refine decodeBytes_eq_ok.2 ⟨?_, rfl⟩
    rw [pairBytes_wordBytes]
    exact decodeOfEncode i hwf
  · intro bs hbs
    match bs with
    | [] | [_] => rfl
    | _ :: _ :: _ => exact absurd hbs (by simp)

end Sys2Proof.Machine
end

section
/-!
PROOFS. The unknown words (30_encoding.md R73, R75). A row tests the opcode `w[15:12]` of a word alone, or with it the last
nibble or the last two; so each part of the table leaves unknown the words of its opcodes with the remaining nibbles.
-/
namespace Sys2Proof.Machine

@[simp] theorem nibble_and_F (v : Nibble) : v &&& 0xF#4 = v := BitVec.and_allOnes

/-- Opcodes 0 to 7. Rows 0 and 1 take no word that row 2 does not (30_encoding.md R72). -/
theorem no_row0To9_iff (a b c d : Nibble) :
    (∀ r ∈ tableRows0To9, rowApplies r (ofNibbles a b c d) = false) ↔
      a ∉ [0x0#4, 0x1#4, 0x2#4, 0x3#4, 0x4#4] ∧ (a = 0x5#4 → d ≠ 0x0#4) ∧ a ∉ [0x6#4, 0x7#4] := by
  by_cases h0 : a = 0x0#4
  · simp [tableRows0To9, rowApplies_nibbles, h0]
  · simp [tableRows0To9, rowApplies_nibbles, h0, and_assoc]

/-- Opcodes 8 and 9. -/
theorem no_row10To19_iff (a b c d : Nibble) :
    (∀ r ∈ tableRows10To19, rowApplies r (ofNibbles a b c d) = false) ↔
      (a = 0x8#4 → d ∉ [0x0#4, 0x1#4, 0x2#4, 0x3#4, 0x4#4, 0x5#4, 0x6#4, 0x7#4, 0xE#4]) ∧
      (a = 0x9#4 → d ≠ 0x0#4) := by
  simp [tableRows10To19, rowApplies_nibbles, imp_and, and_assoc]

/-- Opcodes A to F. -/
theorem no_row20To34_iff (a b c d : Nibble) :
    (∀ r ∈ tableRows20To34, rowApplies r (ofNibbles a b c d) = false) ↔
      a ∉ [0xA#4, 0xB#4, 0xC#4, 0xD#4] ∧
      (a = 0xE#4 → (c, d) ∉ [(0x9#4, 0xE#4), (0xA#4, 0x1#4)]) ∧
      (a = 0xF#4 → (c, d) ∉ [(0x0#4, 0x7#4), (0x0#4, 0xA#4), (0x1#4, 0x5#4), (0x1#4, 0x8#4), (0x1#4, 0xE#4),
        (0x2#4, 0x9#4), (0x3#4, 0x3#4), (0x5#4, 0x5#4), (0x6#4, 0x5#4)]) := by
  simp [tableRows20To34, rowApplies_nibbles, imp_and, and_assoc]

/-- A byte is its two nibbles. -/
theorem nibbles_eq_iff (c d : Nibble) (k : Nat) :
    c.toNat * 16 + d.toNat = k ↔ c.toNat = k / 16 ∧ d.toNat = k % 16 := by
  have hd : d.toNat < 16 := d.isLt
  omega

/-- The opcodes some of whose words are unknown, and the others (30_encoding.md R73). -/
theorem opcode_cases (a : Nibble) :
    a = 0x5#4 ∨ a = 0x8#4 ∨ a = 0x9#4 ∨ a = 0xE#4 ∨ a = 0xF#4 ∨
      a ∈ [0x0#4, 0x1#4, 0x2#4, 0x3#4, 0x4#4, 0x6#4, 0x7#4, 0xA#4, 0xB#4, 0xC#4, 0xD#4] := by
  revert a
  decide

/-- Of the last nibbles under opcode 8, those that no row has (30_encoding.md R75). -/
theorem unknown_sub_iff : ∀ d : Nibble,
    d ∉ [0x0#4, 0x1#4, 0x2#4, 0x3#4, 0x4#4, 0x5#4, 0x6#4, 0x7#4, 0xE#4] ↔
      d.toNat ∈ [0x8, 0x9, 0xA, 0xB, 0xC, 0xD, 0xF] := by decide

/-- Settles O31: opcode by opcode, the words that no row of any part of the table takes. -/
theorem unknownSpaceExact : Obligations.UnknownSpaceExact := by
  intro w
  obtain ⟨a, b, c, d, rfl⟩ := exists_nibbles w
  obtain ⟨ha, -, -, hd, hcd, -⟩ := slice_nibbles a b c d
  rw [ha, hd, hcd, matchWord_eq_none, selectRow_eq_none, table, List.forall_mem_append, List.forall_mem_append,
    no_row0To9_iff, no_row10To19_iff, no_row20To34_iff]
  obtain rfl | rfl | rfl | rfl | rfl | h := opcode_cases a
  · simp [← BitVec.toNat_inj]
  · simpa using unknown_sub_iff d
  · simp [← BitVec.toNat_inj]
  · simp [← BitVec.toNat_inj, nibbles_eq_iff]
  · simp [← BitVec.toNat_inj, nibbles_eq_iff]
  · fin_cases h <;> simp

end Sys2Proof.Machine
end

section
/-!
PROOFS. The text the decoder prints: operand forms and templates (30_encoding.md R66 to R69), and the placeholder, which
its first character tells from every line of the table (R76).
-/
namespace Sys2Proof.Machine

/-! ### Operands and templates -/

theorem render_append (t u : Template) (f : Fields) : render (t ++ u) f = render t f ++ render u f := by
  induction t with
  | nil => rfl
  | cons it t ih => simp [ih]

theorem render_singleton (it : Item) (f : Fields) : render [it] f = renderItem f it := by simp

/-- The fields of a word are its slices (41_decoder.md R103). -/
theorem toNat_fields (w : Word) :
    (extract w).x.toNat = slice w 11 8 ∧ (extract w).y.toNat = slice w 7 4 ∧ (extract w).n.toNat = slice w 3 0 ∧
      (extract w).nn.toNat = slice w 7 0 ∧ (extract w).nnn.toNat = slice w 11 0 :=
  ⟨toNat_extract w 8 4, toNat_extract w 4 4, toNat_extract w 0 4, toNat_extract w 0 8, toNat_extract w 0 12⟩

/-- Settles O37: a placeholder's digits are those of the field, which is the slice. -/
theorem renderTemplate : Obligations.RenderTemplate := by
  refine ⟨render_nil, render_append, fun t f => render_singleton (.lit t) f, fun w => ?_, fun _ _ _ => rfl⟩
  obtain ⟨hx, hy, hn, hnn, hnnn⟩ := toNat_fields w
  simp only [render_singleton, renderItem, hex1_eq, hex2_eq, hex3_eq, hx, hy, hn, hnn, hnnn, and_self]

/-- Settles O38: each operand is its leading characters and the digits of the value. -/
theorem operandForms : Obligations.OperandForms := by
  refine ⟨fun v => ⟨?_, rfl⟩, fun v => ⟨?_, rfl⟩, fun v => ⟨?_, rfl⟩, fun v => ⟨?_, rfl⟩, by decide⟩
  · simp [regText, hex1_eq]
  · simp [addrText, hex3_eq]
  · simp [byteText, hex2_eq]
  · simp [nibbleText, hex1_eq]

/-! ### The placeholder -/

/-- The template begins with a literal whose first character is not `0`. -/
def leadsWithLetter : Template → Bool
  | .lit (c :: _) :: _ => c != '0'
  | _ => false

theorem leadsWithLetter_table : ∀ r ∈ table, leadsWithLetter r.template = true := by decide

theorem head?_render_ne_zero {t : Template} (h : leadsWithLetter t = true) (f : Fields) :
    (render t f).head? ≠ some '0' := by
  match t with
  | .lit (c :: _) :: _ => simpa [leadsWithLetter, renderItem] using h

theorem line_of_unknown {w : Word} (h : selectRow w = none) :
    (decoderOut w).line = "0x".toList ++ hexOf 4 w.toNat := by
  rw [decoderOut_of_none h, placeholder_eq]

theorem head?_line_eq_zero_iff (w : Word) : (decoderOut w).line.head? = some '0' ↔ (decoderOut w).unk = true := by
  cases h : selectRow w with
  | none =>
    rw [decoderOut_of_none h]
    exact iff_of_true rfl rfl
  | some p =>
    obtain ⟨k, r⟩ := p
    obtain ⟨hk, -, -⟩ := selectRow_eq_some h
    rw [decoderOut_of_some h]
    exact iff_of_false
      (head?_render_ne_zero (leadsWithLetter_table r (List.mem_of_getElem? hk)) (extract w)) Bool.false_ne_true

/-- Settles O34: the line of an unknown word is `0x` and its digits, and no line of the table begins with `0`. -/
theorem placeholderLine : Obligations.PlaceholderLine := by
  refine ⟨fun w hw => ?_, head?_line_eq_zero_iff, by decide, by decide⟩
  have h := matchWord_eq_none.1 hw
  refine ⟨line_of_unknown h, ?_⟩
  rw [decoderOut_of_none h]
  exact ⟨rfl, rfl, rfl, rfl⟩

end Sys2Proof.Machine
end

section
/-!
PROOFS. The entries of a stream (41_decoder.md R108, R109): word `i` is the pair of the bytes at offsets `2i` and `2i + 1`
(40_word_reader.md R90), and entry `i` is the decoding of word `i`.
-/
namespace Sys2Proof.Machine

theorem getElem?_words (bs : List Byte) (i : Nat) :
    (words bs)[i]? = Option.map₂ pairBytes bs[2 * i]? bs[2 * i + 1]? := by
  induction bs using words.induct generalizing i with
  | case1 hi lo bs ih =>
    cases i with
    | zero => rfl
    | succ i => simpa [words, Nat.mul_succ] using ih i
  | case2 b => cases i <;> simp [words, Nat.mul_succ]
  | case3 => simp [words]

theorem getElem?_disassemble_lines (bs : List Byte) (i : Nat) :
    (disassemble bs).lines[i]? = (words bs)[i]?.map entryOf := List.getElem?_map

/-- Settles O47: entry `i` is a function of the two bytes of word `i`. -/
theorem entryDependsOnItsWordOnly : Obligations.EntryDependsOnItsWordOnly := by
  intro as bs i hhi hlo
  rw [getElem?_disassemble_lines, getElem?_disassemble_lines, getElem?_words, getElem?_words, hhi, hlo]

end Sys2Proof.Machine
end

section
/-!
PROOFS. The Word Reader over a whole stream (40_word_reader.md R90 to R93): how many words there are and which, how
`words` goes over a cut of the stream at an even offset, and what an odd trailing byte leaves unchanged.
-/
namespace Sys2Proof.Machine

@[simp] theorem words_nil : words [] = [] := rfl

@[simp] theorem words_singleton (b : Byte) : words [b] = [] := rfl

@[simp] theorem words_cons_cons (hi lo : Byte) (bs : List Byte) :
    words (hi :: lo :: bs) = pairBytes hi lo :: words bs := rfl

theorem truncFlag_eq_decide (n : Nat) : truncFlag n = decide (n % 2 = 1) := rfl

/-! ### The words of a stream -/

theorem length_words (bs : List Byte) : (words bs).length = bs.length / 2 := by
  induction bs using words.induct with
  | case1 hi lo bs ih =>
    rw [words_cons_cons, List.length_cons, ih, List.length_cons, List.length_cons]
    omega
  | case2 b => rw [words_singleton, List.length_nil, List.length_singleton]
  | case3 => rfl

theorem words_wordBytes (w : Word) : words (wordBytes w) = [w] := by
  rw [wordBytes, words_cons_cons, pairBytes_wordBytes, words_nil]

/-- Settles O42: word `i` is `pairBytes` of its two bytes, and a word is the pair of its own two bytes. -/
theorem wordsOfStream : Obligations.WordsOfStream := by
  refine ⟨length_words, fun bs i hi lo hhi hlo => ?_, words_wordBytes, by decide⟩
  refine ⟨pairBytes hi lo, ?_, toNat_pairBytes hi lo⟩
  rw [getElem?_words, hhi, hlo]
  rfl

/-! ### The words of the parts of a stream -/

/-- Before an even offset every byte has its partner on the same side, so no word lies across it. -/
theorem words_append_of_even {as : List Byte} (h : as.length % 2 = 0) (bs : List Byte) :
    words (as ++ bs) = words as ++ words bs := by
  induction as using words.induct with
  | case1 hi lo as ih =>
    have heven : as.length % 2 = 0 := by
      rw [List.length_cons, List.length_cons] at h
      omega
    exact congrArg (pairBytes hi lo :: ·) (ih heven)
  | case2 b => exact absurd h (by simp)
  | case3 => rfl

theorem words_eq_nil_of_length_lt_two {bs : List Byte} (h : bs.length < 2) : words bs = [] := by
  rw [← List.length_eq_zero_iff, length_words]
  omega

/-- Settles O43: at most one byte is left past the even-length initial part, and it makes no word. -/
theorem wordsOfParts : Obligations.WordsOfParts := by
  refine ⟨fun bs => ?_, fun as bs h => words_append_of_even h bs⟩
  have heven : (bs.take (2 * (bs.length / 2))).length % 2 = 0 := by
    rw [List.length_take]
    omega
  have hrest : words (bs.drop (2 * (bs.length / 2))) = [] :=
    words_eq_nil_of_length_lt_two (by rw [List.length_drop]; omega)
  calc words (bs.take (2 * (bs.length / 2)))
      = words (bs.take (2 * (bs.length / 2))) ++ words (bs.drop (2 * (bs.length / 2))) := by
        rw [hrest, List.append_nil]
    _ = words bs := by rw [← words_append_of_even heven, List.take_append_drop]

/-! ### The odd trailing byte and the empty input -/

theorem words_concat_of_even {bs : List Byte} (h : bs.length % 2 = 0) (b : Byte) : words (bs ++ [b]) = words bs := by
  rw [words_append_of_even h, words_singleton, List.append_nil]

theorem truncFlag_concat_of_even {bs : List Byte} (h : bs.length % 2 = 0) (b : Byte) :
    truncFlag (bs ++ [b]).length = true := by
  rw [truncFlag_eq_decide, List.length_append, List.length_singleton, decide_eq_true_iff]
  omega

/-- The Word Reader on a stream with an odd trailing byte (40_word_reader.md R92): its outputs do not depend on the
byte's value. -/
theorem wordReader_concat_of_even {bs : List Byte} (h : bs.length % 2 = 0) (b : Byte) :
    wordReader (bs ++ [b]) = (words bs, true) := by
  rw [wordReader, words_concat_of_even h, truncFlag_concat_of_even h]

/-- The lines and `UNKS` depend on the words only (41_decoder.md R109). -/
theorem disassemble_congr_words {as bs : List Byte} (h : words as = words bs) :
    (disassemble as).lines = (disassemble bs).lines ∧ (disassemble as).unks = (disassemble bs).unks := by
  simp only [disassemble, h, and_self]

/-- Settles O44: the trailing byte is in no word, and what the block emits is a function of the words. -/
theorem oddByteAffectsNothing : Obligations.OddByteAffectsNothing := by
  refine ⟨fun bs => truncFlag_eq_decide bs.length, fun bs b h => ?_, ?_, ?_, by decide⟩
  · exact ⟨wordReader_concat_of_even h b, disassemble_congr_words (words_concat_of_even h b)⟩
  · exact wordReader_concat_of_even (bs := []) rfl
  · intro a b
    exact wordReader_concat_of_even (bs := [a, b]) (by simp)

/-- Settles O45: the functions of the stream, evaluated on the empty one. -/
theorem emptyInput : Obligations.EmptyInput := ⟨rfl, rfl, rfl⟩

end Sys2Proof.Machine
end

section
/-!
PROOFS. The matcher, the field extractor and the outputs of `Decode` (41_decoder.md R101, R103, R106), and the codes of a
line's characters (R105).
-/
namespace Sys2Proof.Machine

/-! ### The matcher -/

theorem rowApplies_iff {r : Row} {w : Word} : rowApplies r w = true ↔ w &&& r.mask = r.value := beq_iff_eq

theorem rowApplies_eq_false_iff {r : Row} {w : Word} : rowApplies r w = false ↔ w &&& r.mask ≠ r.value := by
  rw [← Bool.not_eq_true, rowApplies_iff]

/-- The matcher's answer, from the rows alone: row `k` applies and no row before it does. -/
theorem selectRow_eq_some_iff {w : Word} {k : Nat} {r : Row} :
    selectRow w = some (k, r) ↔ table[k]? = some r ∧ rowApplies r w = true ∧
      ∀ j r', j < k → table[j]? = some r' → rowApplies r' w = false :=
  ⟨selectRow_eq_some, fun ⟨hk, ha, hfirst⟩ => selectRow_of_first hk ha hfirst⟩

/-- Settles O29: the matcher loop answers the first row that applies, or none where no row does. -/
theorem matchIsLeastIndex : Obligations.MatchIsLeastIndex := by
  refine ⟨rfl, fun w k => ?_, fun w => ?_, by decide⟩
  · simp only [matchWord_eq_some, selectRow_eq_some_iff, rowApplies_iff, rowApplies_eq_false_iff, ← and_assoc,
      exists_and_right]
  · simp only [matchWord_eq_none, selectRow_eq_none, rowApplies_eq_false_iff]

/-! ### The fields -/

/-- Two fields side by side are the OR of the first, moved up, and the second. -/
theorem append_eq_shiftLeft_or {m n : Nat} (a : BitVec m) (b : BitVec n) :
    a ++ b = (a.setWidth (m + n) <<< n) ||| b.setWidth (m + n) := by
  rw [← BitVec.setWidth_append_eq_shiftLeft_setWidth_or, BitVec.setWidth_eq]

/-- Settles O32: the fields are the slices, and on a word's nibbles `NN` is `Y ++ N` and `NNN` is `X ++ NN`. -/
theorem extractIsSlices : Obligations.ExtractIsSlices := by
  refine ⟨toNat_fields, fun w => ?_, by decide⟩
  obtain ⟨a, b, c, d, rfl⟩ := exists_nibbles w
  rw [extract_nibbles]
  exact ⟨append_eq_shiftLeft_or c d, append_eq_shiftLeft_or b (c ++ d)⟩

/-! ### The outputs of `Decode` -/

theorem unk_iff (w : Word) : (decoderOut w).unk = true ↔ matchWord w = none := by
  rw [matchWord_eq_none]
  cases h : selectRow w with
  | none => simp [decoderOut_of_none h]
  | some p => simp [decoderOut_of_some h]

/-- The 6-bit output `pat` holds every row index of the table. -/
theorem toNat_pat_of_row {k : Nat} {r : Row} (h : table[k]? = some r) : (BitVec.ofNat 6 k).toNat = k := by
  have hk : k < 35 := lt_of_table_getElem? h
  exact Nat.mod_eq_of_lt (by omega)

/-- Settles O33: on a hit the selected row is the table's row of that index; on a miss no row is selected. -/
theorem decodeHitAndMiss : Obligations.DecodeHitAndMiss := by
  refine ⟨fun w => ?_, fun w k r hm hk => ?_, fun w hm => ?_, unk_iff, by decide⟩
  · cases h : selectRow w with
    | none => rw [decoderOut_of_none h]
    | some p => rw [decoderOut_of_some h]
  · obtain ⟨r', h⟩ := matchWord_eq_some.1 hm
    obtain ⟨hk', -, -⟩ := selectRow_eq_some h
    obtain rfl : r = r' := Option.some.inj (hk.symm.trans hk')
    rw [decoderOut_of_some h]
    exact ⟨rfl, rfl, toNat_pat_of_row hk, rfl⟩
  · have h := matchWord_eq_none.1 hm
    rw [decoderOut_of_none h]
    exact ⟨rfl, rfl, rfl, placeholder_eq w⟩

/-! ### The codes of the characters -/

theorem lineBytes_append (t u : Text) : lineBytes (t ++ u) = lineBytes t ++ lineBytes u := List.map_append

/-- Settles O39: the bytes of a line are taken character by character; the codes are a check of the stated characters
and of the 16 digits. -/
theorem characterCodes : Obligations.CharacterCodes :=
  ⟨lineBytes_append, by decide, by decide, by decide, by decide⟩

end Sys2Proof.Machine
end

section
/-!
PROOFS. The step of the sequential rendering (41_decoder.md R110): what it runs, how it ends a run, and that it is the
step made of the table-driven `Decode` (R106).
-/
namespace Sys2Proof.Machine

/-- Settles O4: the two bytes at the cursor are the word the step reads. -/
theorem stepRunsDecoded : Obligations.StepRunsDecoded := by
  intro s hi lo i hd hhi hlo hdec
  obtain ⟨hw, -⟩ := decodeBytes_eq_ok.1 hdec
  exact step_eq_exec hd (readWord_of_bytes hhi hlo) hw

/-- Settles O6: the two arms of the step that read no word. -/
theorem finalStepEndsRun : Obligations.FinalStepEndsRun :=
  ⟨fun _ => step_of_end, fun _ => step_of_done⟩

/-- Settles O7: the three arms of the step; the arm that reads a word emits the entry `Decode` gives it. -/
theorem stepIsTableStep : Obligations.StepIsTableStep :=
  fun _ hl => ⟨step_of_done, fun hd hg => step_of_wordRemains hd hl hg,
    fun hd hg => step_of_end hd (Nat.not_lt.1 hg)⟩

end Sys2Proof.Machine
end

section
/-!
PROOFS. The next state of each instruction, whole (41_decoder.md R110; 42, 43, 44, 'Result'): the meaning of a row emits
one line, and that line, its operands' digits written as the spec's `Hex_k`, is the one the row's rule states.
-/
namespace Sys2Proof.Machine

/-- On a line sink in order, an instruction that emits the line `l` completes with `l` appended and `UNK = 0`. -/
theorem exec_completes {i : Instr} {l : Text} {s : State} (hs : s.lines.length = s.widx) (hi : exec i s = emitLine l s) :
    exec i s = .next (afterEntry l false s) :=
  hi.trans (emitLine_eq hs)

/-- Settles O19: with `Hex_k` as the digits the model prints, each line is its row's, character by character. -/
theorem completionRowsZeroToNine : Obligations.CompletionRowsZeroToNine := by
  intro s hs
  simp only [← hex1_eq, ← hex2_eq, ← hex3_eq]
  refine ⟨?_, ?_, fun nnn => ?_, fun nnn => ?_, fun nnn => ?_, fun x nn => ?_, fun x nn => ?_, fun x y => ?_,
    fun x nn => ?_, fun x nn => ?_⟩ <;> exact exec_completes hs rfl

/-- Settles O20, as O19 for the rows of two registers. -/
theorem completionRowsTenToNineteen : Obligations.CompletionRowsTenToNineteen := by
  intro s hs
  simp only [← hex1_eq]
  refine ⟨?_, ?_, ?_, ?_, ?_, ?_, ?_, ?_, ?_, ?_⟩ <;> exact fun x y => exec_completes hs rfl

/-- Settles O21, as O19. -/
theorem completionRowsTwentyToTwentyThree : Obligations.CompletionRowsTwentyToTwentyThree := by
  intro s hs
  simp only [← hex1_eq, ← hex2_eq, ← hex3_eq]
  exact ⟨fun nnn => exec_completes hs rfl, fun nnn => exec_completes hs rfl, fun x nn => exec_completes hs rfl,
    fun x y n => exec_completes hs rfl⟩

/-- Settles O22, as O19 for the rows of one register. -/
theorem completionRowsTwentyFourToThirtyFour : Obligations.CompletionRowsTwentyFourToThirtyFour := by
  intro s hs
  simp only [← hex1_eq]
  refine ⟨?_, ?_, ?_, ?_, ?_, ?_, ?_, ?_, ?_, ?_, ?_⟩ <;> exact fun x => exec_completes hs rfl

end Sys2Proof.Machine
end

section
/-!
PROOFS. `Disassemble` (41_decoder.md R109): `UNKS` picks from the numbered entries those with `UNK = 1`, so it is a part of
the indices in their order. Then `Join` (R112): the lines hold no line feed, so the line feeds it puts in are the cuts.
-/
namespace Sys2Proof.Machine

/-! ### The indices of the unknown entries -/

theorem unksFrom_eq (i : Nat) (es : List Entry) :
    unksFrom i es = ((es.zipIdx i).filter (fun p => p.1.unk)).map Prod.snd := by
  induction es generalizing i with
  | nil => rfl
  | cons e es ih =>
    rw [unksFrom, ih, List.zipIdx_cons]
    cases hu : e.unk <;> simp [hu]

/-- The indices of a sequence of entries, the unknown ones picked out, stay in their order. -/
theorem unksOf_sublist (es : List Entry) : (unksOf es).Sublist (List.range es.length) := by
  rw [unksOf, unksFrom_eq, List.range_eq_range', ← List.zipIdx_map_snd]
  exact List.filter_sublist.map Prod.snd

/-- `UNKS` is ascending (10_state.md R24). -/
theorem unksOf_pairwise (es : List Entry) : (unksOf es).Pairwise (fun i j => i < j) :=
  List.pairwise_lt_range.sublist (unksOf_sublist es)

/-- `UNKS` holds exactly the indices of the entries with `UNK = 1` (10_state.md R24). -/
theorem mem_unksOf {es : List Entry} {i : Nat} : i ∈ unksOf es ↔ ∃ e, es[i]? = some e ∧ e.unk = true := by
  simp [unksOf, unksFrom_eq, List.mk_mem_zipIdx_iff_getElem?]

/-- Where every entry is unknown, `UNKS` is every index. -/
theorem unksOf_of_all {es : List Entry} (h : ∀ e ∈ es, e.unk = true) : unksOf es = List.range es.length := by
  have hall : ∀ p ∈ es.zipIdx 0, p.1.unk = true := fun p hp => h p.1 (List.fst_mem_of_mem_zipIdx hp)
  rw [unksOf, unksFrom_eq, List.filter_eq_self.2 hall, List.zipIdx_map_snd, List.range_eq_range']

/-! ### The results and the conditions -/

theorem length_disassemble_lines (bs : List Byte) : (disassemble bs).lines.length = bs.length / 2 :=
  (List.length_map entryOf).trans (length_words bs)

theorem mem_disassemble_unks {bs : List Byte} {i : Nat} :
    i ∈ (disassemble bs).unks ↔ ∃ w, (words bs)[i]? = some w ∧ (decoderOut w).unk = true := by
  refine mem_unksOf.trans ?_
  simp [entryOf]

/-- The conditions of a run: Unknown Instruction for each index of `UNKS` with the word of that index, then Truncated
Input where `N` is odd. -/
theorem conditions_eq (bs : List Byte) :
    conditions bs =
      (disassemble bs).unks.map (fun i => Condition.unknownInstruction i ((words bs).getD i 0#16)) ++
        (if bs.length % 2 = 1 then [.truncatedInput] else []) := by
  have hunk := unknownsFrom_eq [] (words bs)
  rw [conditions, truncFlag_eq_decide]
  simpa [disassemble, unksOf] using hunk

theorem unks_of_all_unknown {bs : List Byte} (h : ∀ w ∈ words bs, matchWord w = none) :
    (disassemble bs).unks = List.range (bs.length / 2) := by
  rw [← length_disassemble_lines]
  refine unksOf_of_all fun e he => ?_
  obtain ⟨w, hw, rfl⟩ := List.mem_map.1 he
  exact (unk_iff w).2 (h w hw)

/-- Settles O46: the entries word by word, and `UNKS` and the conditions from the entries' `UNK` bits. -/
theorem disassembleLaw : Obligations.DisassembleLaw := by
  refine ⟨fun bs => ?_, conditions_eq, fun _ => unks_of_all_unknown, rfl, fun _ => rfl, by decide⟩
  refine ⟨length_disassemble_lines bs, fun i w hw => ?_, unksOf_pairwise _, fun _ => mem_disassemble_unks,
    truncFlag_eq_decide _⟩
  rw [getElem?_disassemble_lines, hw]
  rfl

/-! ### `Join` -/

theorem join_eq_intercalate (ts : List Text) : join ts = [Config.lineFeed].intercalate ts := by
  induction ts using join.induct with
  | case1 => rfl
  | case2 t => simp [join]
  | case3 t u ts ih => simp [join, ih, List.intercalate_cons_cons]

theorem lineFeed_notMem_line (w : Word) : Config.lineFeed ∉ (decoderOut w).line := by
  obtain ⟨-, -, hchars, -⟩ := lineShape w
  have hlf : Config.lineFeed ∉ "0123456789ABCDEFGHIJKLMNOPQRSTUVWXYZx,[] ".toList := by decide
  exact fun h => hlf (hchars _ h)

/-- Settles O49: the joined text is cut at its line feeds, none of which is in a line. -/
theorem joinKeepsTheLines : Obligations.JoinKeepsTheLines := by
  refine ⟨rfl, fun bs hne => ?_, by decide⟩
  rw [join_eq_intercalate]
  refine List.splitOn_intercalate _ (fun t ht => ?_) (by simpa using hne)
  obtain ⟨w, -, rfl⟩ : ∃ w ∈ words bs, (decoderOut w).line = t := by
    simpa [disassemble, entryOf] using ht
  exact lineFeed_notMem_line w

end Sys2Proof.Machine
end

section
/-!
PROOFS. A whole run (41_decoder.md R110, R109). Each of the first `W` steps decodes the word at the cursor and keeps the
invariant of a run, and the invariant says that the entries of a state are those of the words before the cursor; at the
end of the run these are the results of `Disassemble`.
-/
namespace Sys2Proof.Machine

/-! ### What the invariant says of the results -/

theorem length_streamOf (s : State) : (streamOf s).length = s.count := by simp [streamOf]

theorem streamOf_congr {s t : State} (hb : t.bytes = s.bytes) (hc : t.count = s.count) : streamOf t = streamOf s := by
  rw [streamOf, streamOf, hb, hc]

/-- Word `i` of the stream a state stands for is the pair a read at its two offsets answers. -/
theorem getElem?_words_streamOf {s : State} {i : Nat} (h : i < wordCount s.count) :
    (words (streamOf s))[i]? = some (wordAt s i) := by
  have hlt : 2 * i + 1 < s.count := by
    rw [wordCount] at h
    omega
  have hhi : readByte s (2 * i) = some (memLookup (2 * i) s.bytes) := readByte_eq_some.2 ⟨by omega, rfl⟩
  have hlo : readByte s (2 * i + 1) = some (memLookup (2 * i + 1) s.bytes) := readByte_eq_some.2 ⟨hlt, rfl⟩
  rw [getElem?_words, getElem?_streamOf, getElem?_streamOf, hhi, hlo]
  rfl

/-- The entries of a state of a run are those of the words before the cursor. -/
theorem lines_eq_take {s : State} (h : RunInv s) : s.lines = (disassemble (streamOf s)).lines.take s.widx := by
  refine List.ext_getElem? fun i => ?_
  rw [List.getElem?_take, getElem?_disassemble_lines]
  split
  · next hi =>
    rw [h.lines_decode i hi, getElem?_words_streamOf (Nat.lt_of_lt_of_le hi h.cursor_le)]
    rfl
  · next hi => exact List.getElem?_eq_none (by rw [h.lines_length]; omega)

/-- A run that is over shows the host the results of `Disassemble` (60_exceptions.md R209). -/
theorem hostView_of_done {s : State} (h : RunInv s) (hd : s.done = true) :
    hostView s = some (disassemble (streamOf s)) := by
  have hlines : s.lines = (disassemble (streamOf s)).lines := by
    have hlen : (disassemble (streamOf s)).lines.length = s.widx := by
      rw [length_disassemble_lines, length_streamOf, h.done_end hd, wordCount]
    rw [lines_eq_take h, ← hlen, List.take_length]
  have hunks : s.unks = (disassemble (streamOf s)).unks := by
    rw [h.unks_eq, hlines]
    rfl
  have htrunc : s.trunc = (disassemble (streamOf s)).trunc := by
    rw [h.trunc_eq, hd, Bool.true_and, ← length_streamOf]
    rfl
  rw [hostView, if_pos hd, hlines, hunks, htrunc]

/-! ### The steps of a run -/

theorem run_succ_of_next {s t : core.State} (h : core.step s = .next t) (n : Nat) :
    core.run (n + 1) s = core.run n t := by
  rw [Host.Core.run, h]

theorem run_succ_of_fault {s : core.State} {r : Fault} (h : core.step s = .fault r) (n : Nat) :
    core.run (n + 1) s = .fault r := by
  rw [Host.Core.run, h]

/-- A step with words left decodes one of them: a state of the same run, one word further. -/
theorem step_decodes {s : State} (h : RunInv s) (hd : s.done = false) (hlt : s.widx < wordCount s.count) :
    ∃ t, step s = .next t ∧ RunInv t ∧ t.done = false ∧ t.widx = s.widx + 1 ∧ streamOf t = streamOf s := by
  have hg : 2 * s.widx + 1 < s.count := by
    rw [wordCount] at hlt
    omega
  exact ⟨_, step_of_wordRemains hd h.lines_length hg, runInv_afterEntry h hd hg, hd, rfl, streamOf_congr rfl rfl⟩

/-- The next `k` words are decoded in `k` steps, and the run goes on from there. -/
theorem run_decodes {s : State} {k : Nat} (h : RunInv s) (hd : s.done = false)
    (hk : s.widx + k ≤ wordCount (streamOf s).length) :
    ∃ t, RunInv t ∧ t.done = false ∧ t.widx = s.widx + k ∧ streamOf t = streamOf s ∧
      ∀ n, core.run (k + n) s = core.run n t := by
  induction k generalizing s with
  | zero => exact ⟨s, h, hd, rfl, rfl, fun n => by rw [Nat.zero_add]⟩
  | succ k ih =>
    have hlt : s.widx < wordCount s.count := by
      rw [length_streamOf] at hk
      omega
    obtain ⟨u, hu, hinv, hdu, hwu, hsu⟩ := step_decodes h hd hlt
    obtain ⟨t, ht, hdt, hwt, hst, hrun⟩ := ih hinv hdu (by rw [hsu, hwu]; omega)
    refine ⟨t, ht, hdt, by omega, hst.trans hsu, fun n => ?_⟩
    rw [Nat.succ_add, run_succ_of_next hu, hrun]

/-- Settles O12: the first `W` steps decode the words, and the one after them is the final step. -/
theorem runComputesDisassemble : Obligations.RunComputesDisassemble := by
  intro bs s
  have hstart := runInv_startRun bs s
  have hstream := streamOf_startRun bs s
  have reach : ∀ k ≤ wordCount bs.length, ∃ t, RunInv t ∧ t.done = false ∧ t.widx = k ∧ streamOf t = bs ∧
      ∀ n, core.run (k + n) (startRun bs s) = core.run n t := by
    intro k hk
    simpa [hstream] using run_decodes hstart rfl (k := k) (by simpa [hstream] using hk)
  obtain ⟨t, ht, hd, hw, hst, hrun⟩ := reach _ le_rfl
  have hend : t.count ≤ 2 * t.widx + 1 := by
    rw [hw, ← hst, length_streamOf, wordCount]
    omega
  have hfinal : step t = .next (afterFinal t) := step_of_end hd hend
  refine ⟨fun k hk => ?_, ⟨afterFinal t, ?_, hw, ?_⟩, ?_⟩
  · obtain ⟨u, hu, hdu, hwu, hsu, hrunu⟩ := reach k hk
    refine ⟨u, hrunu 0, hdu, hwu, ?_⟩
    rw [lines_eq_take hu, hsu, hwu]
  · rw [hrun, run_succ_of_next hfinal]
    rfl
  · rw [hostView_of_done (runInv_afterFinal ht hd hend) rfl, ← hst]
    rfl
  · rw [hrun, run_succ_of_next hfinal, run_succ_of_fault (step_of_done rfl)]

end Sys2Proof.Machine
end

section
/-!
PROOFS. A line tells its word (41_decoder.md R107). A placeholder begins with `0` and its digits are the word. Two rows'
lines differ whatever the digits, so the line tells the row; a row's placeholders have fixed widths, so the line tells the
row's operands, and these the word (30_encoding.md R63).
-/
namespace Sys2Proof.Machine

/-! ### Digits tell the value -/

theorem digits_getD_inj : ∀ a < 16, ∀ b < 16, digits.getD a '0' = digits.getD b '0' → a = b := by decide

/-- `Hex_k` tells every value below `16^k`. -/
theorem hexOf_inj {k u v : Nat} (hu : u < 16 ^ k) (hv : v < 16 ^ k) (h : hexOf k u = hexOf k v) : u = v := by
  induction k generalizing u v with
  | zero => omega
  | succ k ih =>
    obtain ⟨hhigh, hlow⟩ := List.append_inj' h rfl
    have hdiv : u / 16 = v / 16 := ih (by omega) (by omega) hhigh
    have hmod : u % 16 = v % 16 :=
      digits_getD_inj _ (Nat.mod_lt u (by decide)) _ (Nat.mod_lt v (by decide)) (List.head_eq_of_cons_eq hlow)
    omega

theorem hex1_inj {u v : Nibble} (h : hex1 u = hex1 v) : u = v := by
  rw [hex1_eq, hex1_eq] at h
  exact BitVec.eq_of_toNat_eq (hexOf_inj u.isLt v.isLt h)

theorem hex2_inj {u v : Byte} (h : hex2 u = hex2 v) : u = v := by
  rw [hex2_eq, hex2_eq] at h
  exact BitVec.eq_of_toNat_eq (hexOf_inj u.isLt v.isLt h)

theorem hex3_inj {u v : Addr} (h : hex3 u = hex3 v) : u = v := by
  rw [hex3_eq, hex3_eq] at h
  exact BitVec.eq_of_toNat_eq (hexOf_inj u.isLt v.isLt h)

theorem placeholder_inj {u v : Word} (h : placeholder u = placeholder v) : u = v := by
  rw [placeholder_eq, placeholder_eq] at h
  exact BitVec.eq_of_toNat_eq (hexOf_inj u.isLt v.isLt (List.append_cancel_left h))

/-! ### A line of one row tells the operands -/

theorem length_renderItem (it : Item) (f g : Fields) : (renderItem f it).length = (renderItem g it).length := by
  cases it <;> rfl

/-- Each item of a template takes the same number of characters in all its lines, so the line tells the item's text. -/
theorem renderItem_of_render {t : Template} {f g : Fields} (h : render t f = render t g) :
    ∀ it ∈ t, renderItem f it = renderItem g it := by
  induction t with
  | nil => simp
  | cons it t ih =>
    obtain ⟨hit, ht⟩ := List.append_inj h (length_renderItem it f g)
    exact List.forall_mem_cons.2 ⟨hit, ih ht⟩

/-- A row prints every operand of the instruction it builds. -/
theorem build_of_render {k : Nat} {r : Row} {f g : Fields} (hk : table[k]? = some r)
    (h : render r.template f = render r.template g) : r.build f = r.build g := by
  have hprint := renderItem_of_render h
  have hkf : rowIndex (r.build f) = k := rowIndex_build hk f
  subst hkf
  generalize hi : r.build f = i at hk
  cases i with
  | cls | ret =>
    cases hk
    rfl
  | sysAddr nnn | jpAddr nnn | callAddr nnn | ldIAddr nnn | jpV0Addr nnn =>
    cases hk
    cases hi
    exact congrArg _ (hex3_inj (hprint .fieldNNN (by decide)))
  | seVxByte x nn | sneVxByte x nn | ldVxByte x nn | addVxByte x nn | rndVxByte x nn =>
    cases hk
    cases hi
    exact congrArg₂ _ (hex1_inj (hprint .fieldX (by decide))) (hex2_inj (hprint .fieldNN (by decide)))
  | seVxVy x y | ldVxVy x y | orVxVy x y | andVxVy x y | xorVxVy x y | addVxVy x y | subVxVy x y | shrVxVy x y
  | subnVxVy x y | shlVxVy x y | sneVxVy x y =>
    cases hk
    cases hi
    exact congrArg₂ _ (hex1_inj (hprint .fieldX (by decide))) (hex1_inj (hprint .fieldY (by decide)))
  | drwVxVyNibble x y n =>
    cases hk
    cases hi
    simp only [hex1_inj (hprint .fieldX (by decide)), hex1_inj (hprint .fieldY (by decide)),
      hex1_inj (hprint .fieldN (by decide))]
  | skpVx x | sknpVx x | ldVxDt x | ldVxK x | ldDtVx x | ldStVx x | addIVx x | ldFVx x | ldBVx x | ldIndVx x
  | ldVxInd x =>
    cases hk
    cases hi
    exact congrArg _ (hex1_inj (hprint .fieldX (by decide)))

/-! ### A line tells its row -/

/-- Of the pairs of rows, only `LD F, VX` and `LD B, VX` have lines that agree up to the values of digits, for `F` and `B`
are digits too. -/
theorem rows_blank_agree : ∀ k < 35, ∀ j < k, ∀ rj ∈ table[j]?, ∀ rk ∈ table[k]?,
    (renderRow rj 0#16).map blankDigit = (renderRow rk 0#16).map blankDigit → j = 31 ∧ k = 32 := by decide

theorem renderRow_ne_of_lt {j k : Nat} {rj rk : Row} (hjk : j < k) (hj : table[j]? = some rj)
    (hk : table[k]? = some rk) (v w : Word) : renderRow rj v ≠ renderRow rk w := by
  intro h
  have hblank : (renderRow rj 0#16).map blankDigit = (renderRow rk 0#16).map blankDigit :=
    calc (renderRow rj 0#16).map blankDigit
        = (renderRow rj v).map blankDigit := map_blankDigit_render _ _ _
      _ = (renderRow rk w).map blankDigit := by rw [h]
      _ = (renderRow rk 0#16).map blankDigit := map_blankDigit_render _ _ _
  obtain ⟨rfl, rfl⟩ := rows_blank_agree k (lt_of_table_getElem? hk) j hjk rj hj rk hk hblank
  cases hj
  cases hk
  have hletter : some 'F' = some 'B' := congrArg (·[3]?) h
  exact absurd hletter (by decide)

theorem index_of_renderRow {j k : Nat} {rj rk : Row} {v w : Word} (hj : table[j]? = some rj)
    (hk : table[k]? = some rk) (h : renderRow rj v = renderRow rk w) : j = k := by
  obtain hlt | heq | hlt := Nat.lt_trichotomy j k
  · exact absurd h (renderRow_ne_of_lt hlt hj hk v w)
  · exact heq
  · exact absurd h.symm (renderRow_ne_of_lt hlt hk hj w v)

/-- Two words of rows of the table with one line have one row, build one instruction, and so are one word. -/
theorem eq_of_line_of_rows {j k : Nat} {rj rk : Row} {v w : Word} (hv : selectRow v = some (j, rj))
    (hw : selectRow w = some (k, rk)) (h : renderRow rj v = renderRow rk w) : v = w := by
  obtain ⟨hj, haj, -⟩ := selectRow_eq_some hv
  obtain ⟨hk, hak, -⟩ := selectRow_eq_some hw
  obtain rfl := index_of_renderRow hj hk h
  obtain rfl : rj = rk := Option.some.inj (hj.symm.trans hk)
  calc v = encode (rj.build (extract v)) := (encode_build hj haj rfl).symm
    _ = w := encode_build hj hak (build_of_render hj h).symm

/-- Settles O36: the line's first character tells whether a row has the word, and then the line tells it. -/
theorem lineTellsTheWord : Obligations.LineTellsTheWord := by
  intro v w h
  have hunk : (decoderOut v).unk = (decoderOut w).unk := by
    rw [Bool.eq_iff_iff, ← head?_line_eq_zero_iff, ← head?_line_eq_zero_iff, h]
  cases hv : selectRow v with
  | none =>
    cases hw : selectRow w with
    | none =>
      rw [decoderOut_of_none hv, decoderOut_of_none hw] at h
      exact placeholder_inj h
    | some q =>
      rw [decoderOut_of_none hv, decoderOut_of_some hw] at hunk
      cases hunk
  | some p =>
    cases hw : selectRow w with
    | none =>
      rw [decoderOut_of_some hv, decoderOut_of_none hw] at hunk
      cases hunk
    | some q =>
      rw [decoderOut_of_some hv, decoderOut_of_some hw] at h
      exact eq_of_line_of_rows hv hw h

end Sys2Proof.Machine
end

section
/-!
PROOFS. The rule of a table row, whole (the rule template of files 42, 43, 44): a row's rule follows from which words select
the row, how many they are, and what the row's template prints.
-/
namespace Sys2Proof.Machine

/-! ### Which words select a row -/

theorem rowApplies_of_matchWord {k : Nat} {r : Row} {w : Word} (hk : table[k]? = some r)
    (h : matchWord w = some k) : rowApplies r w = true := by
  obtain ⟨r', hr'⟩ := matchWord_eq_some.1 h
  obtain ⟨hk', ha, -⟩ := selectRow_eq_some hr'
  obtain rfl : r = r' := Option.some.inj (hk.symm.trans hk')
  exact ha

/-- A row that applies is the selected one, but for row 2 on the words of rows 0 and 1 (30_encoding.md R72). -/
theorem matchWord_of_rowApplies {k : Nat} {r : Row} {w : Word} (hk : table[k]? = some r)
    (ha : rowApplies r w = true) (h : k = 2 → w ≠ 0x00E0#16 ∧ w ≠ 0x00EE#16) : matchWord w = some k := by
  refine matchWord_eq_some.2 ⟨r, selectRow_of_first hk ha fun j r' hj hr' => Bool.eq_false_iff.2 fun ha' => ?_⟩
  obtain ⟨-, h2, hw⟩ | ⟨-, h2, hw⟩ := rows_overlap hj hr' hk ha' ha
  · exact (h h2).1 hw
  · exact (h h2).2 hw

theorem matchWord_iff_rowApplies {k : Nat} {r : Row} (hk : table[k]? = some r) (h2 : k ≠ 2) (w : Word) :
    matchWord w = some k ↔ rowApplies r w = true :=
  ⟨rowApplies_of_matchWord hk, fun ha => matchWord_of_rowApplies hk ha fun h => absurd h h2⟩

/-- The rows that test the opcode alone. -/
theorem and_opcode_eq_iff {v : Nibble} {w : Word} : w &&& 0xF000#16 = v ++ 0#12 ↔ slice w 15 12 = v.toNat := by
  obtain ⟨a, b, c, d, rfl⟩ := exists_nibbles w
  obtain ⟨ha, -⟩ := slice_nibbles a b c d
  rw [ha, BitVec.toNat_inj]
  constructor
  · exact opcode_of_and
  · rintro rfl
    exact and_opcode a (b ++ (c ++ d))

/-- The rows that test the opcode and the last nibble. -/
theorem and_sub_eq_iff {v k : Nibble} {w : Word} :
    w &&& 0xF00F#16 = v ++ 0#8 ++ k ↔ slice w 15 12 = v.toNat ∧ slice w 3 0 = k.toNat := by
  obtain ⟨a, b, c, d, rfl⟩ := exists_nibbles w
  obtain ⟨ha, -, -, hd, -⟩ := slice_nibbles a b c d
  rw [ha, hd, BitVec.toNat_inj, BitVec.toNat_inj, ← append_nibbles, and_opcode_sub, append_inj_iff, append_inj_iff]
  simp

/-! ### How many words there are of a format -/

/-- The number of words with a property, as the rules count them. -/
abbrev Counted (P : Word → Prop) (n : Nat) : Prop :=
  ∃ ws : List Word, ws.Nodup ∧ ws.length = n ∧ ∀ w, w ∈ ws ↔ P w

theorem counted_singleton (v : Word) : Counted (fun w => w = v) 1 :=
  ⟨[v], List.nodup_singleton v, rfl, fun _ => List.mem_singleton⟩

/-- Words that differ in `n` free bits only are `2^n`. -/
theorem counted_of_injective {P : Word → Prop} {n : Nat} {f : BitVec n → Word} (hf : Function.Injective f)
    (h : ∀ w, P w ↔ ∃ b, f b = w) : Counted P (2 ^ n) :=
  ⟨(FinEnum.toList (BitVec n)).map f, FinEnum.nodup_toList.map hf, by simp [FinEnum.toList], fun w => by simp [h]⟩

/-- One word left out. -/
theorem Counted.erase {P : Word → Prop} {n : Nat} (h : Counted P (n + 1)) {v : Word} (hv : P v) :
    Counted (fun w => P w ∧ w ≠ v) n := by
  obtain ⟨ws, hnodup, hlen, hmem⟩ := h
  refine ⟨ws.erase v, hnodup.erase v, ?_, fun w => ?_⟩
  · rw [List.length_erase_of_mem ((hmem v).2 hv), hlen, Nat.add_sub_cancel]
  · rw [hnodup.mem_erase_iff, hmem, and_comm]

theorem counted_opcode (v : Nibble) : Counted (fun w => slice w 15 12 = v.toNat) 4096 := by
  refine counted_of_injective (f := fun nnn : Addr => v ++ nnn)
    (fun _ _ h => ((append_inj_iff _ _ _ _).1 h).2) fun w => ?_
  rw [← and_opcode_eq_iff]
  constructor
  · exact fun h => ⟨_, eq_of_opcode h⟩
  · rintro ⟨nnn, rfl⟩
    exact and_opcode v nnn

theorem append_middle (v x y k : Nibble) : (v ++ (x ++ y) ++ k : Word) = v ++ x ++ y ++ k := by
  rw [BitVec.append_assoc (x₁ := v) (x₂ := x)]
  rfl

theorem and_sub_middle (v k : Nibble) (xy : Byte) : (v ++ xy ++ k : Word) &&& 0xF00F#16 = v ++ 0#8 ++ k := by
  have hmask : 0xF00F#16 = BitVec.allOnes 4 ++ 0#8 ++ BitVec.allOnes 4 := rfl
  rw [hmask, BitVec.and_append, BitVec.and_append, BitVec.and_allOnes, BitVec.and_zero, BitVec.and_allOnes]

theorem counted_sub (v k : Nibble) : Counted (fun w => slice w 15 12 = v.toNat ∧ slice w 3 0 = k.toNat) 256 := by
  refine counted_of_injective (f := fun xy : Byte => v ++ xy ++ k) (fun _ _ h => ?_) fun w => ?_
  · rw [append_inj_iff, append_inj_iff] at h
    exact h.1.2
  · rw [← and_sub_eq_iff]
    constructor
    · intro h
      exact ⟨(extract w).x ++ (extract w).y, (append_middle v _ _ k).trans (eq_of_opcode_sub h)⟩
    · rintro ⟨xy, rfl⟩
      exact and_sub_middle v k xy

/-! ### What a row's template prints -/

/-- The digits a template prints, as the rules write them (41_decoder.md R103, 30_encoding.md R66). -/
theorem hexOf_slices (w : Word) :
    hexOf 1 (slice w 11 8) = hex1 (extract w).x ∧ hexOf 1 (slice w 7 4) = hex1 (extract w).y ∧
      hexOf 2 (slice w 7 0) = hex2 (extract w).nn ∧ hexOf 3 (slice w 11 0) = hex3 (extract w).nnn := by
  obtain ⟨hx, hy, -, hnn, hnnn⟩ := toNat_fields w
  rw [hex1_eq, hex1_eq, hex2_eq, hex3_eq, hx, hy, hnn, hnnn]
  exact ⟨rfl, rfl, rfl, rfl⟩

theorem renderRow_nnn {r : Row} {p : Text} (h : r.template = [.lit p, .fieldNNN]) (w : Word) :
    renderRow r w = p ++ hexOf 3 (slice w 11 0) := by
  simp [renderRow, h, renderItem, hexOf_slices]

theorem renderRow_x_nn {r : Row} {p q : Text} (h : r.template = [.lit p, .fieldX, .lit q, .fieldNN]) (w : Word) :
    renderRow r w = p ++ hexOf 1 (slice w 11 8) ++ q ++ hexOf 2 (slice w 7 0) := by
  simp [renderRow, h, renderItem, hexOf_slices]

theorem renderRow_x_y {r : Row} {p q : Text} (h : r.template = [.lit p, .fieldX, .lit q, .fieldY]) (w : Word) :
    renderRow r w = p ++ hexOf 1 (slice w 11 8) ++ q ++ hexOf 1 (slice w 7 4) := by
  simp [renderRow, h, renderItem, hexOf_slices]

/-! ### The rule of a row -/

/-- A run that reads a word of row `k` appends the line of that row. -/
theorem step_of_matchWord {s : State} {w : Word} {k : Nat} {r : Row} (hm : matchWord w = some k)
    (hk : table[k]? = some r) (hd : s.done = false) (hw : fetchWord s = some w) (hl : s.lines.length = s.widx) :
    step s = .next (afterEntry (renderRow r w) false s) := by
  obtain ⟨-, hrow, -⟩ := decodeHitAndMiss
  obtain ⟨-, hunk, -, hline⟩ := hrow w k r hm hk
  obtain ⟨hg, rfl⟩ := fetchWord_eq_some.1 hw
  rw [step_of_wordRemains hd hl hg, entryOf, hunk, hline]

/-- `r` is the table's row of the rule: it stands at the rule's index with the rule's encoding, and its template prints
the rule's line. -/
structure RowRule.RowIs (rule : RowRule) (r : Row) : Prop where
  at_index : table[rule.index]? = some r
  mask_eq : r.mask = rule.mask
  value_eq : r.value = rule.value
  prints : ∀ w, renderRow r w = rule.line w
  line_length : ∀ w, (rule.line w).length = rule.length

/-- The rule holds of the model, by what there is to show of one row: its place in the table, its selection, its count,
its unknown neighbours and its samples. -/
theorem RowRule.RowIs.holds {rule : RowRule} {r : Row} (h : rule.RowIs r)
    (hsel : ∀ w, matchWord w = some rule.index ↔ rule.selects w) (hcount : Counted rule.selects rule.selected)
    (hmiss : ∀ w, rule.misses w → matchWord w = none)
    (hsample : ∀ p ∈ rule.samples, (decoderOut p.1).line = p.2.toList) : rule.Holds where
  encoding := by rw [h.at_index, Option.map_some, h.mask_eq, h.value_eq]
  selection := hsel
  counted := hcount
  result := fun w hw => by
    obtain ⟨-, hrow, -⟩ := decodeHitAndMiss
    obtain ⟨hhit, hunk, hpat, hline⟩ := hrow w rule.index r ((hsel w).2 hw) h.at_index
    exact ⟨hhit, hunk, hpat, hline.trans (h.prints w), h.line_length w⟩
  stepped := fun s w hw hd hf hl => by
    rw [← h.prints]
    exact step_of_matchWord ((hsel w).2 hw) h.at_index hd hf hl
  missed := fun w hw => by
    have hm := hmiss w hw
    exact ⟨hm, (unk_iff w).2 hm, line_of_unknown (matchWord_eq_none.1 hm)⟩
  sampled := hsample

theorem RowRule.RowIs.matchWord_iff {rule : RowRule} {r : Row} (h : rule.RowIs r) (h2 : rule.index ≠ 2) (w : Word) :
    matchWord w = some rule.index ↔ w &&& rule.mask = rule.value := by
  rw [matchWord_iff_rowApplies h.at_index h2, rowApplies_iff, h.mask_eq, h.value_eq]

/-! ### The rules by format (30_encoding.md R62) -/

/-- The rule of a row that tests every bit: one word. -/
def fullMaskRule (v : Word) (k : Nat) (line : Word → Text) (len : Nat) (samples : List (Word × String)) : RowRule where
  index := k
  mask := BitVec.allOnes 16
  value := v
  selects := fun w => w = v
  selected := 1
  line := line
  length := len
  misses := fun _ => False
  samples := samples

/-- The rule of a row that tests the opcode alone: 4096 words. -/
def opcodeRule (v : Nibble) (k : Nat) (line : Word → Text) (len : Nat) (samples : List (Word × String)) : RowRule where
  index := k
  mask := 0xF000#16
  value := v ++ 0#12
  selects := fun w => slice w 15 12 = v.toNat
  selected := 4096
  line := line
  length := len
  misses := fun _ => False
  samples := samples

/-- The rule of a row that tests the opcode and the last nibble: 256 words. -/
def subRule (v n : Nibble) (k : Nat) (line : Word → Text) (len : Nat) (misses : Word → Prop)
    (samples : List (Word × String)) : RowRule where
  index := k
  mask := 0xF00F#16
  value := v ++ 0#8 ++ n
  selects := fun w => slice w 15 12 = v.toNat ∧ slice w 3 0 = n.toNat
  selected := 256
  line := line
  length := len
  misses := misses
  samples := samples

section
variable {k len : Nat} {line : Word → Text} {samples : List (Word × String)} {r : Row}

theorem holds_fullMaskRule {v : Word} (h : (fullMaskRule v k line len samples).RowIs r) (h2 : k ≠ 2)
    (hsample : ∀ p ∈ samples, (decoderOut p.1).line = p.2.toList) : (fullMaskRule v k line len samples).Holds := by
  refine h.holds (fun w => (h.matchWord_iff h2 w).trans ?_) (counted_singleton v) (fun _ => False.elim) hsample
  show w &&& BitVec.allOnes 16 = v ↔ w = v
  rw [BitVec.and_allOnes]

theorem holds_opcodeRule {v : Nibble} (h : (opcodeRule v k line len samples).RowIs r) (h2 : k ≠ 2)
    (hsample : ∀ p ∈ samples, (decoderOut p.1).line = p.2.toList) : (opcodeRule v k line len samples).Holds :=
  h.holds (fun w => (h.matchWord_iff h2 w).trans and_opcode_eq_iff) (counted_opcode v) (fun _ => False.elim) hsample

theorem holds_subRule {v n : Nibble} {misses : Word → Prop} (h : (subRule v n k line len misses samples).RowIs r)
    (h2 : k ≠ 2) (hmiss : ∀ w, misses w → matchWord w = none)
    (hsample : ∀ p ∈ samples, (decoderOut p.1).line = p.2.toList) : (subRule v n k line len misses samples).Holds :=
  h.holds (fun w => (h.matchWord_iff h2 w).trans and_sub_eq_iff) (counted_sub v n) hmiss hsample

end

end Sys2Proof.Machine
end

section
/-!
PROOFS. The rules of rows 0 to 9 (42_patterns_0_to_7.md): each is the rule of its format, but for row 2, which leaves the
words of rows 0 and 1 to them (30_encoding.md R72).
-/
namespace Sys2Proof.Machine

/-! ### Row 2 -/

/-- The selection of row 2 (R132): it applies to every word of opcode 0, and comes after rows 0 and 1. -/
theorem matchWord_eq_two_iff (w : Word) :
    matchWord w = some 2 ↔ slice w 15 12 = 0 ∧ w ≠ 0x00E0#16 ∧ w ≠ 0x00EE#16 := by
  have happlies : ∀ r, table[2]? = some r → (rowApplies r w = true ↔ slice w 15 12 = 0) := by
    intro r hr
    cases hr
    exact rowApplies_iff.trans (and_opcode_eq_iff (v := 0x0#4))
  constructor
  · intro h
    refine ⟨(happlies _ rfl).1 (rowApplies_of_matchWord rfl h), ?_, ?_⟩
    · rintro rfl
      exact absurd h (by decide)
    · rintro rfl
      exact absurd h (by decide)
  · rintro ⟨h0, hne⟩
    exact matchWord_of_rowApplies rfl ((happlies _ rfl).2 h0) fun _ => hne

/-- Row 2 has the 4096 words of opcode 0, less the two of rows 0 and 1 (R132). -/
theorem counted_row2 : Counted (fun w => slice w 15 12 = 0 ∧ w ≠ 0x00E0#16 ∧ w ≠ 0x00EE#16) 4094 := by
  simp only [← and_assoc]
  exact ((counted_opcode 0x0#4).erase (by decide)).erase (by decide)

/-! ### The ten rules -/

/-- R130 to R139: the format of each row's rule, and of its template. -/
theorem holds_rowRules0To9 : ∀ rule ∈ rowRules0To9, rule.Holds := by
  simp only [rowRules0To9, List.forall_mem_cons]
  refine ⟨?_, ?_, ?_, ?_, ?_, ?_, ?_, ?_, ?_, ?_, List.forall_mem_nil _⟩
  · exact holds_fullMaskRule ⟨rfl, rfl, rfl, fun _ => rfl, fun _ => rfl⟩ (by decide) (by decide)
  · exact holds_fullMaskRule ⟨rfl, rfl, rfl, fun _ => rfl, fun _ => rfl⟩ (by decide) (by decide)
  · exact RowRule.RowIs.holds ⟨rfl, rfl, rfl, renderRow_nnn rfl, fun _ => rfl⟩ matchWord_eq_two_iff counted_row2
      (fun _ => False.elim) (by decide)
  · exact holds_opcodeRule (v := 0x1#4) ⟨rfl, rfl, rfl, renderRow_nnn rfl, fun _ => rfl⟩ (by decide) (by decide)
  · exact holds_opcodeRule (v := 0x2#4) ⟨rfl, rfl, rfl, renderRow_nnn rfl, fun _ => rfl⟩ (by decide) (by decide)
  · exact holds_opcodeRule (v := 0x3#4) ⟨rfl, rfl, rfl, renderRow_x_nn rfl, fun _ => rfl⟩ (by decide) (by decide)
  · exact holds_opcodeRule (v := 0x4#4) ⟨rfl, rfl, rfl, renderRow_x_nn rfl, fun _ => rfl⟩ (by decide) (by decide)
  · exact holds_subRule (v := 0x5#4) (n := 0x0#4) ⟨rfl, rfl, rfl, renderRow_x_y rfl, fun _ => rfl⟩ (by decide)
      (fun w hw => (unknownSpaceExact w).2 (.inl hw)) (by decide)
  · exact holds_opcodeRule (v := 0x6#4) ⟨rfl, rfl, rfl, renderRow_x_nn rfl, fun _ => rfl⟩ (by decide) (by decide)
  · exact holds_opcodeRule (v := 0x7#4) ⟨rfl, rfl, rfl, renderRow_x_nn rfl, fun _ => rfl⟩ (by decide) (by decide)

/-- Settles O15: the ten rules; rows 0 and 1 go before row 2, and every other row is selected wherever it applies, for
only row 2 overlaps with an earlier row. -/
theorem rowsZeroToNine : Obligations.RowsZeroToNine := by
  refine ⟨holds_rowRules0To9, fun r hr => ?_, fun k r h2 hk w => (matchWord_iff_rowApplies hk h2 w).symm, by decide,
    by decide, by decide, by decide⟩
  cases hr
  decide

end Sys2Proof.Machine
end

section
/-!
PROOFS. The rules of rows 10 to 19 (43_patterns_8_to_9.md): each is the rule of a row that tests the opcode and the last
nibble, and prints `VX` and `VY`.
-/
namespace Sys2Proof.Machine

/-- Words of two different rows have different lines, for a line tells its word (41_decoder.md R107). -/
theorem line_ne_of_matchWord {j k : Nat} {v w : Word} (hjk : j ≠ k) (hv : matchWord v = some j)
    (hw : matchWord w = some k) : (decoderOut v).line ≠ (decoderOut w).line := by
  intro h
  obtain rfl := lineTellsTheWord v w h
  exact hjk (Option.some.inj (hv.symm.trans hw))

/-- The rule of a row of opcode 8 whose corner cases name no unknown word. -/
theorem holds_opcode8Rule {n : Nibble} {k len : Nat} {line : Word → Text} {samples : List (Word × String)} {r : Row}
    (h : (subRule 0x8#4 n k line len (fun _ => False) samples).RowIs r) (h2 : k ≠ 2)
    (hsample : ∀ p ∈ samples, (decoderOut p.1).line = p.2.toList) :
    (subRule 0x8#4 n k line len (fun _ => False) samples).Holds :=
  holds_subRule h h2 (fun _ => False.elim) hsample

/-- R140 to R149: the last nibble of each row's rule, and the format of its template. The unknown neighbours are single
words of opcode 8 for rows 17 and 18, and every other word of opcode 9 for row 19 (30_encoding.md R75). -/
theorem holds_rowRules10To19 : ∀ rule ∈ rowRules10To19, rule.Holds := by
  simp only [rowRules10To19, List.forall_mem_cons]
  refine ⟨?_, ?_, ?_, ?_, ?_, ?_, ?_, ?_, ?_, ?_, List.forall_mem_nil _⟩
  · exact holds_opcode8Rule (n := 0x0#4) ⟨rfl, rfl, rfl, renderRow_x_y rfl, fun _ => rfl⟩ (by decide) (by decide)
  · exact holds_opcode8Rule (n := 0x1#4) ⟨rfl, rfl, rfl, renderRow_x_y rfl, fun _ => rfl⟩ (by decide) (by decide)
  · exact holds_opcode8Rule (n := 0x2#4) ⟨rfl, rfl, rfl, renderRow_x_y rfl, fun _ => rfl⟩ (by decide) (by decide)
  · exact holds_opcode8Rule (n := 0x3#4) ⟨rfl, rfl, rfl, renderRow_x_y rfl, fun _ => rfl⟩ (by decide) (by decide)
  · exact holds_opcode8Rule (n := 0x4#4) ⟨rfl, rfl, rfl, renderRow_x_y rfl, fun _ => rfl⟩ (by decide) (by decide)
  · exact holds_opcode8Rule (n := 0x5#4) ⟨rfl, rfl, rfl, renderRow_x_y rfl, fun _ => rfl⟩ (by decide) (by decide)
  · exact holds_opcode8Rule (n := 0x6#4) ⟨rfl, rfl, rfl, renderRow_x_y rfl, fun _ => rfl⟩ (by decide) (by decide)
  · exact holds_subRule (v := 0x8#4) (n := 0x7#4) ⟨rfl, rfl, rfl, renderRow_x_y rfl, fun _ => rfl⟩ (by decide)
      (List.forall_mem_singleton.2 (by decide)) (by decide)
  · exact holds_subRule (v := 0x8#4) (n := 0xE#4) ⟨rfl, rfl, rfl, renderRow_x_y rfl, fun _ => rfl⟩ (by decide)
      (List.forall_mem_cons.2 ⟨by decide, List.forall_mem_singleton.2 (by decide)⟩) (by decide)
  · exact holds_subRule (v := 0x9#4) (n := 0x0#4) ⟨rfl, rfl, rfl, renderRow_x_y rfl, fun _ => rfl⟩ (by decide)
      (fun w hw => (unknownSpaceExact w).2 (.inr (.inr (.inl hw)))) (by decide)

/-- Settles O16: the ten rules; the lines compared are of different rows. -/
theorem rowsTenToNineteen : Obligations.RowsTenToNineteen := by
  refine ⟨holds_rowRules10To19, fun v w hv hw => ?_, fun v w => line_ne_of_matchWord (by decide)⟩
  obtain hw | hw := hw
  · exact line_ne_of_matchWord (by decide) hv hw
  · exact line_ne_of_matchWord (by decide) hv hw

end Sys2Proof.Machine
end

section
/-!
PROOFS. The rules of rows 20 to 34 (44_patterns_a_to_f.md): rows 20 to 23 test the opcode alone, rows 24 to 34 the opcode
and the low byte, of which they print `VX` alone.
-/
namespace Sys2Proof.Machine

/-! ### The rule of a row that tests the opcode and the low byte (30_encoding.md R62) -/

theorem and_low_eq_iff {v : Nibble} {k : Byte} {w : Word} :
    w &&& 0xF0FF#16 = v ++ 0#4 ++ k ↔ slice w 15 12 = v.toNat ∧ slice w 7 0 = k.toNat := by
  obtain ⟨a, b, c, d, rfl⟩ := exists_nibbles w
  obtain ⟨ha, -⟩ := slice_nibbles a b c d
  obtain ⟨-, -, -, hnn, -⟩ := toNat_fields (ofNibbles a b c d)
  rw [ha, ← hnn, extract_nibbles, BitVec.toNat_inj, BitVec.toNat_inj, ← append_byte, and_opcode_low, append_inj_iff,
    append_inj_iff]
  simp

theorem counted_low (v : Nibble) (k : Byte) :
    Counted (fun w => slice w 15 12 = v.toNat ∧ slice w 7 0 = k.toNat) 16 := by
  refine counted_of_injective (f := fun x : Nibble => v ++ x ++ k) (fun _ _ h => ?_) fun w => ?_
  · rw [append_inj_iff, append_inj_iff] at h
    exact h.1.2
  · rw [← and_low_eq_iff]
    constructor
    · exact fun h => ⟨_, eq_of_opcode_low h⟩
    · rintro ⟨x, rfl⟩
      exact and_opcode_low v x k

/-- The rule of a row that tests the opcode and the low byte: 16 words. Its corner cases list the unknown words. -/
def lowRule (v : Nibble) (n : Byte) (k : Nat) (line : Word → Text) (len : Nat) (misses : List Word)
    (samples : List (Word × String)) : RowRule where
  index := k
  mask := 0xF0FF#16
  value := v ++ 0#4 ++ n
  selects := fun w => slice w 15 12 = v.toNat ∧ slice w 7 0 = n.toNat
  selected := 16
  line := line
  length := len
  misses := fun w => w ∈ misses
  samples := samples

/-- The unknown words of the corner cases are few: the matcher runs on each (as a `Bool`, for `decide` on a quantifier over
words runs through them all). -/
theorem holds_lowRule {v : Nibble} {n : Byte} {k len : Nat} {line : Word → Text} {misses : List Word}
    {samples : List (Word × String)} {r : Row} (h : (lowRule v n k line len misses samples).RowIs r) (h2 : k ≠ 2)
    (hmiss : misses.all (fun w => (matchWord w).isNone) = true)
    (hsample : ∀ p ∈ samples, (decoderOut p.1).line = p.2.toList) :
    (lowRule v n k line len misses samples).Holds :=
  h.holds (fun w => (h.matchWord_iff h2 w).trans and_low_eq_iff) (counted_low v n)
    (fun w hw => Option.isNone_iff_eq_none.1 (List.all_eq_true.1 hmiss w hw)) hsample

/-! ### The templates of these rows -/

theorem renderRow_x {r : Row} {p : Text} (h : r.template = [.lit p, .fieldX]) (w : Word) :
    renderRow r w = p ++ hexOf 1 (slice w 11 8) := by
  simp [renderRow, h, renderItem, hexOf_slices]

theorem renderRow_x_lit {r : Row} {p q : Text} (h : r.template = [.lit p, .fieldX, .lit q]) (w : Word) :
    renderRow r w = p ++ hexOf 1 (slice w 11 8) ++ q := by
  simp [renderRow, h, renderItem, hexOf_slices]

/-- The last nibble as a template prints it (41_decoder.md R103, 30_encoding.md R66). -/
theorem hexOf_slice_n (w : Word) : hexOf 1 (slice w 3 0) = hex1 (extract w).n := by
  obtain ⟨-, -, hn, -⟩ := toNat_fields w
  rw [hex1_eq, hn]

theorem renderRow_x_y_n {r : Row} {p q t : Text}
    (h : r.template = [.lit p, .fieldX, .lit q, .fieldY, .lit t, .fieldN]) (w : Word) :
    renderRow r w = p ++ hexOf 1 (slice w 11 8) ++ q ++ hexOf 1 (slice w 7 4) ++ t ++ hexOf 1 (slice w 3 0) := by
  simp [renderRow, h, renderItem, hexOf_slices, hexOf_slice_n]

/-! ### Rows 20 to 23 -/

/-- Settles O17 (R150 to R153): each rule is that of a row that tests the opcode alone, with the format of its template. -/
theorem rowsTwentyToTwentyThree : Obligations.RowsTwentyToTwentyThree := by
  simp only [Obligations.RowsTwentyToTwentyThree, rowRules20To23, List.forall_mem_cons]
  refine ⟨?_, ?_, ?_, ?_, List.forall_mem_nil _⟩
  · exact holds_opcodeRule (v := 0xA#4) ⟨rfl, rfl, rfl, renderRow_nnn rfl, fun _ => rfl⟩ (by decide) (by decide)
  · exact holds_opcodeRule (v := 0xB#4) ⟨rfl, rfl, rfl, renderRow_nnn rfl, fun _ => rfl⟩ (by decide) (by decide)
  · exact holds_opcodeRule (v := 0xC#4) ⟨rfl, rfl, rfl, renderRow_x_nn rfl, fun _ => rfl⟩ (by decide) (by decide)
  · exact holds_opcodeRule (v := 0xD#4) ⟨rfl, rfl, rfl, renderRow_x_y_n rfl, fun _ => rfl⟩ (by decide) (by decide)

/-! ### Rows 24 to 34 -/

/-- R154 to R164: the opcode and the low byte of each row's rule, and the format of its template: `VX` last, or a
literal after it. -/
theorem holds_rowRules24To34 : ∀ rule ∈ rowRules24To34, rule.Holds := by
  simp only [rowRules24To34, List.forall_mem_cons]
  refine ⟨?_, ?_, ?_, ?_, ?_, ?_, ?_, ?_, ?_, ?_, ?_, List.forall_mem_nil _⟩
  · exact holds_lowRule (v := 0xE#4) (n := 0x9E#8) ⟨rfl, rfl, rfl, renderRow_x rfl, fun _ => rfl⟩ (by decide)
      (by decide) (by decide)
  · exact holds_lowRule (v := 0xE#4) (n := 0xA1#8) ⟨rfl, rfl, rfl, renderRow_x rfl, fun _ => rfl⟩ (by decide)
      (by decide) (by decide)
  · exact holds_lowRule (v := 0xF#4) (n := 0x07#8) ⟨rfl, rfl, rfl, renderRow_x_lit rfl, fun _ => rfl⟩ (by decide)
      (by decide) (by decide)
  · exact holds_lowRule (v := 0xF#4) (n := 0x0A#8) ⟨rfl, rfl, rfl, renderRow_x_lit rfl, fun _ => rfl⟩ (by decide)
      (by decide) (by decide)
  · exact holds_lowRule (v := 0xF#4) (n := 0x15#8) ⟨rfl, rfl, rfl, renderRow_x rfl, fun _ => rfl⟩ (by decide)
      (by decide) (by decide)
  · exact holds_lowRule (v := 0xF#4) (n := 0x18#8) ⟨rfl, rfl, rfl, renderRow_x rfl, fun _ => rfl⟩ (by decide)
      (by decide) (by decide)
  · exact holds_lowRule (v := 0xF#4) (n := 0x1E#8) ⟨rfl, rfl, rfl, renderRow_x rfl, fun _ => rfl⟩ (by decide)
      (by decide) (by decide)
  · exact holds_lowRule (v := 0xF#4) (n := 0x29#8) ⟨rfl, rfl, rfl, renderRow_x rfl, fun _ => rfl⟩ (by decide)
      (by decide) (by decide)
  · exact holds_lowRule (v := 0xF#4) (n := 0x33#8) ⟨rfl, rfl, rfl, renderRow_x rfl, fun _ => rfl⟩ (by decide)
      (by decide) (by decide)
  · exact holds_lowRule (v := 0xF#4) (n := 0x55#8) ⟨rfl, rfl, rfl, renderRow_x rfl, fun _ => rfl⟩ (by decide)
      (by decide) (by decide)
  · exact holds_lowRule (v := 0xF#4) (n := 0x65#8) ⟨rfl, rfl, rfl, renderRow_x_lit rfl, fun _ => rfl⟩ (by decide)
      (by decide) (by decide)

/-- Settles O18: the eleven rules, and the table's length. -/
theorem rowsTwentyFourToThirtyFour : Obligations.RowsTwentyFourToThirtyFour :=
  ⟨holds_rowRules24To34, rfl⟩

end Sys2Proof.Machine
end

section
/-!
PROOFS. The conditions as the state records them (60_exceptions.md): an unknown word's step and its record (R202, R208), the
progress of a run (R200, R205), and `UNKS` as the indices of the unknown entries (R206, R209).
-/
namespace Sys2Proof.Machine

/-! ### The steps of a run -/

/-- Settles O5: the decoder rejects a word by that word, and the step emits its placeholder. -/
theorem stepOnUnknownWord : Obligations.StepOnUnknownWord := by
  intro s w e hd hl hw hrej
  obtain ⟨-, he⟩ := decodeWord_eq_rejected.1 hrej
  refine ⟨he, ?_⟩
  rw [step_of_word hd hw, hrej, ← placeholder_eq]
  exact emitUnknown_eq hl

/-- Settles O10: with a whole word left the step decodes it, for the line sink of a run is in order; else it ends the
run. -/
theorem runNeverStuck : Obligations.RunNeverStuck := by
  intro s h hd
  by_cases hg : 2 * s.widx + 1 < s.count
  · exact ⟨_, step_of_wordRemains hd h.lines_length hg⟩
  · exact ⟨_, step_of_end hd (Nat.not_lt.1 hg)⟩

/-! ### The first unknown entry -/

theorem head?_unksFrom (i : Nat) (es : List Entry) :
    (unksFrom i es).head? = (es.findIdx? (fun e => e.unk)).map (· + i) := by
  induction es generalizing i with
  | nil => rfl
  | cons e es ih =>
    rw [unksFrom, List.findIdx?_cons]
    split
    · simp
    · simp [ih, Function.comp_def, Nat.add_assoc, Nat.add_comm 1]

/-- `UNKS[0]` is the index of the first unknown entry (60_exceptions.md R209). -/
theorem head?_unksOf (es : List Entry) : (unksOf es).head? = es.findIdx? (fun e => e.unk) := by
  simpa [unksOf] using head?_unksFrom 0 es

/-- Settles O11: in a run `UNKS` is the unknown indices of the entries. -/
theorem unksAscendingAndExact : Obligations.UnksAscendingAndExact := by
  intro s h
  rw [h.unks_eq]
  exact ⟨unksOf_pairwise _, fun _ => mem_unksOf, head?_unksOf _⟩

/-! ### The condition a step raises -/

/-- A decoding step raises Unknown Instruction, with the word's index and value, exactly where the word's entry has
`UNK = 1` (60_exceptions.md R202). -/
theorem raisedBy_of_wordRemains {s : State} (hd : s.done = false) (hg : 2 * s.widx + 1 < s.count) :
    raisedBy s =
      if (decoderOut (wordAt s s.widx)).unk then [.unknownInstruction s.widx (wordAt s s.widx)] else [] := by
  simp [raisedBy, hd, wordRemains_iff.2 hg, fetchWord_eq_some.2 ⟨hg, rfl⟩]

/-- The final step raises Truncated Input exactly where `N` is odd (60_exceptions.md R201). -/
theorem raisedBy_of_end {s : State} (hd : s.done = false) (hend : s.count ≤ 2 * s.widx + 1) :
    raisedBy s = if truncFlag s.count then [.truncatedInput] else [] := by
  simp [raisedBy, hd, wordRemains, hend]

/-- Settles O13: the decoding step and the final step each test one condition, and record it where it is raised. -/
theorem conditionsRecorded : Obligations.ConditionsRecorded := by
  intro s t h
  obtain ⟨hd, ⟨hg, -, rfl⟩ | ⟨hend, rfl⟩⟩ := step_next_entryOf h
  · rw [raisedBy_of_wordRemains hd hg, afterEntry_unks, afterEntry_trunc, entryOf]
    cases (decoderOut (wordAt s s.widx)).unk <;> simp [unknownIndex]
  · rw [raisedBy_of_end hd hend, afterFinal_unks, afterFinal_trunc]
    cases truncFlag s.count <;> simp [unknownIndex]

end Sys2Proof.Machine
end

section
/-!
PROOFS. The conditions of a whole run in the order they are raised (60_exceptions.md R206): the steps that decode raise the
unknown words that are left, and the final step Truncated Input. Then the entries decoded in any order (R212).
-/
namespace Sys2Proof.Machine

/-! ### The conditions over the steps of a run -/

theorem raisedOver_succ_of_next {s t : State} (h : step s = .next t) (k : Nat) :
    raisedOver (k + 1) s = raisedBy s ++ raisedOver k t := by
  rw [raisedOver, h]

/-- A run with `k` words left raises, over the `k + 1` steps that end it, the conditions of those words and of the odd
trailing byte. -/
theorem raisedOver_of_runInv {s : State} {k : Nat} (h : RunInv s) (hd : s.done = false)
    (hk : s.widx + k = wordCount s.count) :
    raisedOver (k + 1) s = unknownsFrom s.widx ((words (streamOf s)).drop s.widx) ++
      if truncFlag s.count then [.truncatedInput] else [] := by
  induction k generalizing s with
  | zero =>
    have hend : s.count ≤ 2 * s.widx + 1 := by
      rw [wordCount] at hk
      omega
    have hdrop : (words (streamOf s)).drop s.widx = [] :=
      List.drop_eq_nil_of_le (by rw [length_words, length_streamOf]; exact hk.ge)
    rw [raisedOver_succ_of_next (step_of_end hd hend), raisedBy_of_end hd hend, hdrop]
    simp [raisedOver, unknownsFrom]
  | succ k ih =>
    have hg : 2 * s.widx + 1 < s.count := by
      rw [wordCount] at hk
      omega
    have hdrop : (words (streamOf s)).drop s.widx =
        wordAt s s.widx :: (words (streamOf s)).drop (s.widx + 1) := by
      rw [List.drop_eq_getElem?_toList_append, getElem?_words_streamOf (by omega)]
      rfl
    have hrest := ih (runInv_afterEntry h hd hg) hd ((Nat.succ_add_eq_add_succ _ k).trans hk)
    rw [streamOf_congr (afterEntry_bytes _ _ s) (afterEntry_count _ _ s)] at hrest
    rw [raisedOver_succ_of_next (step_of_wordRemains hd h.lines_length hg), hrest, raisedBy_of_wordRemains hd hg,
      hdrop, unknownsFrom]
    split <;> rfl

theorem raisedOver_startRun (bs : List Byte) (s : State) :
    raisedOver (wordCount bs.length + 1) (startRun bs s) = conditions bs := by
  have h := raisedOver_of_runInv (runInv_startRun bs s) rfl (Nat.zero_add (wordCount bs.length))
  rwa [streamOf_startRun] at h

/-! ### The conditions of a run -/

theorem filterMap_unknownIndex_conditions (bs : List Byte) :
    (conditions bs).filterMap unknownIndex = (disassemble bs).unks := by
  rw [conditions_eq, List.filterMap_append, List.filterMap_map]
  split <;> simp [Function.comp_def, unknownIndex]

/-- Unknown Instruction is raised for word `i` with its value exactly where no row applies to it. -/
theorem unknownInstruction_mem_conditions {bs : List Byte} {i : Nat} {w : Word} :
    Condition.unknownInstruction i w ∈ conditions bs ↔ (words bs)[i]? = some w ∧ matchWord w = none := by
  have hmem : Condition.unknownInstruction i w ∈ conditions bs ↔
      i ∈ (disassemble bs).unks ∧ (words bs).getD i 0#16 = w := by
    rw [conditions_eq]
    split <;> simp
  rw [hmem, mem_disassemble_unks]
  constructor
  · rintro ⟨⟨v, hv, hunk⟩, hw⟩
    obtain rfl : v = w := by simpa [hv] using hw
    exact ⟨hv, (unk_iff v).1 hunk⟩
  · rintro ⟨hw, hm⟩
    exact ⟨⟨w, hw, (unk_iff w).2 hm⟩, by simp [hw]⟩

/-- Settles O14: the conditions of the run's steps are those of its words and its odd byte, in the order of the steps. -/
theorem conditionsInOrder : Obligations.ConditionsInOrder := by
  intro bs s
  exact ⟨raisedOver_startRun bs s, filterMap_unknownIndex_conditions bs,
    fun _ _ => unknownInstruction_mem_conditions, _, conditions_eq bs, by simp⟩

/-! ### Words decoded in any order -/

/-- A result carried by each index below `n`, whatever the order of the results, is put at its index. -/
theorem reassemble_of_perm {n : Nat} {order : List Nat} (h : order.Perm (List.range n)) (f : Nat → Entry) :
    reassemble n (order.map (fun i => (i, f i))) = (List.range n).map f := by
  have hlookup : ∀ i ∈ List.range n, (order.map (fun i => (i, f i))).lookup i = some (f i) :=
    fun i hi => List.lookup_graph f (h.mem_iff.2 hi)
  exact (List.filterMap_congr hlookup).trans (congrFun List.filterMap_eq_map _)

theorem map_getD_range_words (bs : List Byte) :
    (List.range (wordCount bs.length)).map (fun i => (words bs).getD i 0#16) = words bs := by
  refine List.ext_getElem (by simp [wordCount, length_words]) fun i _ hi => ?_
  simp [hi]

/-- Settles O48: the entry of each word stands at the word's index, and these are the entries of `Disassemble`. -/
theorem anyDecodingOrderSameLines : Obligations.AnyDecodingOrderSameLines := by
  intro bs order h
  have hwords := congrArg (List.map entryOf) (map_getD_range_words bs)
  rw [List.map_map] at hwords
  exact (reassemble_of_perm h _).trans hwords

end Sys2Proof.Machine
end

section
/-!
PROOFS. Reset and the start of a run (70_reset_and_hazards.md): `restart` writes every field but `BYTES` and `N`, and
`startRun` writes these two as well, so that nothing of the earlier state is left.
-/
namespace Sys2Proof.Machine

theorem startRun_eq_startRun_reset (bs : List Byte) (s : State) : startRun bs s = startRun bs State.reset := rfl

/-- Settles O1: the start of a run and a restart by the fields they write; the reset state is the start of the run on
the empty stream. -/
theorem startOfRunValues : Obligations.StartOfRunValues := by
  refine ⟨startRun_eq_startRun_reset, ?_, fun s => ⟨restart_bytes s, restart_count s⟩⟩
  rintro bs s t (rfl | rfl | rfl)
  · exact ⟨startRun_widx bs s, startRun_lines bs s, startRun_unks bs s, startRun_trunc bs s, startRun_done bs s⟩
  · exact ⟨restart_widx s, restart_lines s, restart_unks s, restart_trunc s, restart_done s⟩
  · rw [← startRun_nil_reset]
    simp

end Sys2Proof.Machine
end

section
/-!
PROOFS. Sample words written out bit by bit (42_patterns_0_to_7.md, 43_patterns_8_to_9.md, 44_patterns_a_to_f.md): the bits
of a sample are the encoding of its instruction, and the round trip O25 decodes them; the unknown sample is of the unknown
space O31.
-/
namespace Sys2Proof.Machine

theorem decodeWord_of_encode_eq {i : Instr} {w : Word} (hw : encode i = w) (hwf : wellFormed i = true) :
    decodeWord w = .ok i :=
  hw ▸ decodeOfEncode i hwf

theorem decodeWord_of_matchWord_eq_none {w : Word} (h : matchWord w = none) :
    decodeWord w = .rejected (.unknownInstruction w) :=
  decodeWord_eq_rejected.2 ⟨matchWord_eq_none.1 h, rfl⟩

/-- Settles O28: each sample is the word of its instruction, and 0x5ABC has opcode 5 with a last nibble other than 0. -/
theorem decodeOfSampleWords : Obligations.DecodeOfSampleWords := by
  refine ⟨?cls, ?ret, ?sysAddr, ?seVxByte, ?seVxVy, ?shlVxVy, ?jpV0Addr, ?drwVxVyNibble, ?skpVx, ?ldVxInd, ?unknown⟩
  case unknown =>
    have hspace : slice 0x5ABC#16 15 12 = 0x5 ∧ slice 0x5ABC#16 3 0 ≠ 0 := by decide
    exact decodeWord_of_matchWord_eq_none ((unknownSpaceExact _).2 (.inl hspace))
  all_goals exact decodeWord_of_encode_eq (by decide) (by decide)

end Sys2Proof.Machine
end
